-- ==== Sys2Proof/Word.lean ====
section
/-! DEFINITION. The word types of BSW and the value domains of spec/00_scope.md R9 and R10. -/

namespace Sys2Proof

/-- A byte: 8 bits, bit 7 the most significant (R9). -/
abbrev Byte := BitVec 8

/-- A 32-bit word of the command port or of a status output (R31, R32, R33). -/
abbrev Word := BitVec 32

/-- The three states of the escaper (R24). The 2-bit value 3 is unreachable (U3) and excluded by type. -/
inductive EscState where
  /-- No finalized zero byte directly before (0). -/
  | noZeros
  /-- One finalized zero byte (1). -/
  | oneZero
  /-- Two or more finalized zero bytes (2). -/
  | twoOrMoreZeros
  deriving DecidableEq, Repr, Inhabited

end Sys2Proof
end

