-- ==== Sys2Proof/Syntax.lean ====
section
/-! DEFINITION. The commands of BSW-CMD v1: the three words on the command port, and one constructor of
`Instr` for each row of spec/opcode_table.json. -/

namespace Sys2Proof

/-- A command as presented on the command port: three 32-bit words (R31, R60). -/
structure Command where
  /-- Operation and fields (R61). -/
  cmd : Word
  /-- First operand (R65). -/
  arg0 : Word
  /-- Second operand (R66). -/
  arg1 : Word
  deriving DecidableEq, Repr

/-- The five commands (R62), each with its operands in the value domain the spec reads them in (R65, R66):
`Nat` for a zero-extended word or field, `Int` for WRITE_SE's two's-complement word (R10). -/
inductive Instr where
  /-- INIT (R160): no operands; ARG0 and ARG1 are ignored. -/
  | init
  /-- WRITE_FIXED value, width, esc (R103). -/
  | writeFixed (value : Nat) (width : Nat) (esc : Bool)
  /-- WRITE_UE value (R141), value = zext(ARG0). -/
  | writeUE (value : Nat)
  /-- WRITE_SE value (R143), value = sint(ARG0). -/
  | writeSE (value : Int)
  /-- EXPORT byte_offset, byte_length (R86). -/
  | exportBytes (offset : Nat) (length : Nat)
  deriving DecidableEq, Repr

end Sys2Proof
end

