-- ==== Sys2Proof/WellFormed.lean ====
section
/-! DEFINITION. Which instructions can be written in the command words: every literal fits its field
(R72: "A literal that does not fit its field is refused by the assembler and never reaches BSW"). -/

namespace Sys2Proof

/-- A Nat that fits a 32-bit operand word (R65, R66). -/
abbrev fitsWord (n : Nat) : Prop := n < 2 ^ 32

/-- A Nat that fits CMD.WIDTH, 6 bits (R64). Widths 0 and 33 to 63 are encodable. -/
abbrev fitsWidth (n : Nat) : Prop := n < 2 ^ 6

/-- An Int that fits WRITE_SE's two's-complement operand word (R65). -/
abbrev fitsSigned (v : Int) : Prop := -(2 ^ 31) ≤ v ∧ v < 2 ^ 31

/-- The operand ranges of R72, one check for each field. -/
def Instr.wellFormed : Instr → Bool
  | .init => true
  | .writeFixed value width _ => decide (fitsWord value) && decide (fitsWidth width)
  | .writeUE value => decide (fitsWord value)
  | .writeSE value => decide (fitsSigned value)
  | .exportBytes offset length => decide (fitsWord offset) && decide (fitsWord length)

end Sys2Proof
end

