-- ==== Sys2Proof/Decode.lean ====
section
/-! DEFINITION. Decoding a command (R70), total on every CMD word, and the encoder of R72 beside it. -/

namespace Sys2Proof

/-- Bits hi down to lo of a word, as a number (R9: `v[hi:lo]`). -/
def wordField (w : Word) (hi lo : Nat) : Nat := w.toNat / 2 ^ lo % 2 ^ (hi - lo + 1)

/-- OP, CMD[3:0] (R61). -/
def cmdOp (cmd : Word) : Nat := wordField cmd 3 0
/-- ESC, CMD[4] (R61, R63). -/
def cmdEsc (cmd : Word) : Bool := wordField cmd 4 4 == 1
/-- WIDTH, CMD[10:5] (R61, R64). -/
def cmdWidth (cmd : Word) : Nat := wordField cmd 10 5
/-- RSVD, CMD[31:11] (R61, R67). -/
def cmdRsvd (cmd : Word) : Nat := wordField cmd 31 11

/-- `zext` of R10. -/
def zext (w : Word) : Nat := w.toNat

/-- `sint` of R10: v when v < 2^31, else v − 2^32. -/
def sint (w : Word) : Int := if w.toNat < 2 ^ 31 then (w.toNat : Int) else (w.toNat : Int) - 2 ^ 32

/-- The decode function of R70 with the operands of R65 and R66. `none` is the spec's Illegal:
RSVD ≠ 0, ESC or WIDTH on an OP other than WRITE_FIXED, or a reserved OP (R67, R68). -/
def decode (c : Command) : Option Instr :=
  if cmdRsvd c.cmd ≠ 0 then none
  else if cmdOp c.cmd = 0x2 then some (.writeFixed (zext c.arg0) (cmdWidth c.cmd) (cmdEsc c.cmd))
  else if cmdEsc c.cmd = true ∨ cmdWidth c.cmd ≠ 0 then none
  else if cmdOp c.cmd = 0x1 then some .init
  else if cmdOp c.cmd = 0x3 then some (.writeUE (zext c.arg0))
  else if cmdOp c.cmd = 0x4 then some (.writeSE (sint c.arg0))
  else if cmdOp c.cmd = 0x5 then some (.exportBytes (zext c.arg0) (zext c.arg1))
  else none

/-- `CMD = OP | ESC << 4 | WIDTH << 5` (R72); the three fields do not overlap, so the sum is the OR. -/
def cmdWord (op : Nat) (esc : Bool) (width : Nat) : Word :=
  BitVec.ofNat 32 (op + esc.toNat * 2 ^ 4 + width * 2 ^ 5)

/-- Assembly (R72): ARG0 and ARG1 as R65 and R66 list them, 0 where ignored, WRITE_SE's ARG0 = value mod 2^32. -/
def encode : Instr → Command
  | .init => ⟨cmdWord 0x1 false 0, 0, 0⟩
  | .writeFixed value width esc => ⟨cmdWord 0x2 esc width, BitVec.ofNat 32 value, 0⟩
  | .writeUE value => ⟨cmdWord 0x3 false 0, BitVec.ofNat 32 value, 0⟩
  | .writeSE value => ⟨cmdWord 0x4 false 0, BitVec.ofNat 32 (value % 2 ^ 32).toNat, 0⟩
  | .exportBytes offset length => ⟨cmdWord 0x5 false 0, BitVec.ofNat 32 offset, BitVec.ofNat 32 length⟩

/-- The assembler's refusal (R72): an instruction with a literal that does not fit has no command words. -/
def assemble (i : Instr) : Option Command := if i.wellFormed then some (encode i) else none

/-- The three words of a command numbered as one: CMD is bits 31..0, ARG0 bits 63..32, ARG1 bits 95..64
(DESIGN CHOICE, safe, log 10: the words are presented together and the spec numbers none across them). -/
def Command.ofBits (n : Nat) : Command :=
  ⟨BitVec.ofNat 32 n, BitVec.ofNat 32 (n / 2 ^ 32), BitVec.ofNat 32 (n / 2 ^ 64)⟩

/-- A word of `nbits` bits as the opcode table numbers it, every bit above them 0. -/
def Command.ofTableWord (nbits w : Nat) : Command := Command.ofBits (w % 2 ^ nbits)

/-- What the decoder reads from an instruction whose bits are `w`, as the opcode table numbers them. -/
def decodeTableWord (nbits w : Nat) : Option Instr := decode (Command.ofTableWord nbits w)

end Sys2Proof
end

