-- ==== Sys2Proof/Config.lean ====
section
/-! DEFINITION. What the spec fixes for every BSW (R6), what the platform fixes for one BSW (R7), and the
free values: what the spec leaves unspecified although the machine goes on (R182, R200). -/

namespace Sys2Proof

namespace Config

/-- MIN_WIDTH of R6. -/
abbrev minWidth : Nat := 1
/-- MAX_WIDTH of R6. -/
abbrev maxWidth : Nat := 32
/-- GROW_INCREMENT of R6. -/
abbrev growIncrement : Nat := 1024
/-- HEADROOM_MIN of R6. -/
abbrev headroomMin : Nat := 4
/-- ESCAPE_BYTE of R6. -/
abbrev escapeByte : Byte := 0x03#8
/-- EP_TRIGGER_MAX of R6. -/
abbrev epTriggerMax : Nat := 3
/-- EG_MAX_L of R6. -/
abbrev egMaxL : Nat := 16
/-- EG_SPLIT_L of R6. -/
abbrev egSplitL : Nat := 16

/-- The two parameters the source leaves open, which a model takes as arguments (R7, P1, P2; log 1). -/
structure Params where
  /-- INIT_CAPACITY, the capacity in bytes at INIT and reset. -/
  initCapacity : Nat
  /-- BUF_MAX_BYTES, the largest capacity the storage can reach. -/
  bufMaxBytes : Nat
  deriving DecidableEq, Repr

/-- The constraint of R7: 1 ≤ INIT_CAPACITY ≤ BUF_MAX_BYTES ≤ 2^32. -/
abbrev Params.Legal (p : Params) : Prop :=
  1 ≤ p.initCapacity ∧ p.initCapacity ≤ p.bufMaxBytes ∧ p.bufMaxBytes ≤ 2 ^ 32

/-- The parameters of `State.reset`, those of the spec's test vectors (95_test_vectors.md, start state).
DESIGN CHOICE, unsafe (log 1): the spec leaves them open; no statement rests on these values. -/
def defaultParams : Params := { initCapacity := 1024, bufMaxBytes := 2 ^ 32 }

/-- FREE VALUE: the bytes BUF holds after the n-th RESOURCE_EXHAUSTED (R182, U2; log 3). -/
opaque exhaustedBuf : Nat → List Host.Cell
/-- FREE VALUE: WC after the n-th RESOURCE_EXHAUSTED (R182, U2; log 3). -/
opaque exhaustedWc : Nat → BitVec 32
/-- FREE VALUE: BO after the n-th RESOURCE_EXHAUSTED (R182, U2; log 3). -/
opaque exhaustedBo : Nat → BitVec 3
/-- FREE VALUE: ES after the n-th RESOURCE_EXHAUSTED (R182, U2; log 3). -/
opaque exhaustedEs : Nat → EscState
/-- FREE VALUE: where CAP stands in its range 1 .. BUF_MAX_BYTES after the n-th RESOURCE_EXHAUSTED (R25, R182, U2; log 3). -/
opaque exhaustedCap : Nat → Nat
/-- FREE VALUE: whether a command during which a reset is requested lets its response out (R200, U7; log 7). -/
opaque responseLetOut : Nat → Bool

end Config

end Sys2Proof
end

