-- ==== Sys2Proof/Machine/State.lean ====
section
/-! DEFINITION. The state of BSW: the writer state of spec/10_state.md R20 (BUF, WC, BO, ES, CAP, FLT, ERR, CAUSE),
the open parameters of R7, and the command port's two sides (R31, R71); its reset (R34); the reasons a step stops. -/

namespace Sys2Proof.Machine

/-- BUF as data (R21): the bytes that have been written since INIT or reset, by index, indices strictly rising.
An index that is not listed holds an unspecified value (R34, R81, U1): it reads as NO VALUE (log 2). -/
abbrev Memory := List Host.Cell

/-- Error codes 1 to 5 (R180), the legal non-zero values of CAUSE (R27). -/
inductive ErrorCode where
  /-- 1, raised by any malformed CMD word (R67, R68). -/
  | illegalCommand
  /-- 2, raised by WRITE_FIXED (R103). -/
  | widthRange
  /-- 3, raised by WRITE_UE and WRITE_SE (R140). -/
  | egRange
  /-- 4, raised by EXPORT (R86). -/
  | exportRange
  /-- 5, raised by a finalization whose Grow fails (R80, R101). -/
  | resourceExhausted
  deriving DecidableEq, Repr

/-- RESP (R71, R180): OK, an error, or REFUSED_FAULTED. Codes 7 to 15 are never returned (V4) and have no name here. -/
inductive RespCode where
  /-- 0: the command completed. -/
  | ok
  /-- 1 to 5: the command ended with this error (R184). -/
  | error (e : ErrorCode)
  /-- 6: the command was refused because FLT = 1 (R185). -/
  | refusedFaulted
  deriving DecidableEq, Repr

/-- The one response of a command (R71): a code and EXPORT's bytes in increasing index order. -/
structure Response where
  /-- RESP. -/
  code : RespCode
  /-- DATA. -/
  data : List Byte
  deriving DecidableEq, Repr

/-- What the host does next at a command boundary. The port is the model's own input list (log 5). -/
inductive HostEvent where
  /-- The host presents a command (R29, R31). -/
  | command (c : Command)
  /-- Reset, applied while no command is executing (R200). -/
  | reset
  /-- A command during which a reset is requested: the reset takes effect after the command completes (R200, U7; log 7). -/
  | commandThenReset (c : Command)
  deriving DecidableEq, Repr

/-- The machine's state. The first eight fields are R20's tuple; `params` is R7's configuration; `port` and `resp` are
the two sides of the command port; `free` is the model's own counter of free values (log 4). -/
structure State where
  /-- BUF (R21). -/
  buf : Memory
  /-- WC, 32 bits (R22). -/
  wc : BitVec 32
  /-- BO, 3 bits (R23). -/
  bo : BitVec 3
  /-- ES (R24). -/
  es : EscState
  /-- CAP, 1 to BUF_MAX_BYTES (R25). -/
  cap : Nat
  /-- FLT (R26). -/
  flt : Bool
  /-- ERR (R27). -/
  err : Bool
  /-- CAUSE (R27): `none` is the register's value 0 (log 14). -/
  cause : Option ErrorCode
  /-- INIT_CAPACITY and BUF_MAX_BYTES (R7), set by the platform before boot (R202; log 1). -/
  params : Config.Params
  /-- The host's events still to be presented, in its order (R29; log 5). -/
  port : List HostEvent
  /-- The response of the last command, `none` when the last event returned none (R71, R200; log 6). -/
  resp : Option Response
  /-- The number of the next free value (log 4). -/
  free : Nat
  deriving DecidableEq, Repr

/-- Why the machine stops. Neither fault is the hardware's: no command reaches one from a state of the
invariants of R28 (R47, R84), and an obligation says so (log 11). -/
inductive Fault where
  /-- Raised by an access to BUF at an index outside 0 .. CAP − 1, which R84 says no command makes. Safe. -/
  | outsideBuffer
  /-- Raised by a read of an index whose value is unspecified, which R47 says no command makes. Safe. -/
  | unspecifiedByte
  deriving DecidableEq, Repr

/-- Why the model declines an instruction. -/
inductive Refusal where
  /-- An instruction without a meaning in this model, raised by its arm of `exec`; no arm raises it. Safe. -/
  | notModelled (mnemonic : String)
  deriving DecidableEq, Repr

/-- The state after reset (R34, R200, R201) of a BSW whose platform set the parameters `p`, with nothing presented. -/
def State.resetWith (p : Config.Params) : State where
  buf := [(0, 0x00#8)]
  wc := 0
  bo := 0
  es := .noZeros
  cap := p.initCapacity
  flt := false
  err := false
  cause := none
  params := p
  port := []
  resp := none
  free := 0

/-- The machine right after reset, with the parameters of the spec's test vectors (log 1). -/
def State.reset : State := State.resetWith Config.defaultParams

end Sys2Proof.Machine
end

