-- ==== Sys2Proof/Machine/Ops.lean ====
section
/-! DEFINITION. The shared operations: BUF's reads and writes (R11, R40), how a command's procedure ends (R11),
ERROR ENTRY as one operation (R184), refusal (R185), the response (R71), and reset (R34, R200).
There is no return from an error (R186): the next command simply runs. -/

namespace Sys2Proof.Machine

/-! ### BUF as data -/

/-- The canonical form: indices strictly rising. An unlisted index reads as no value, so no entry equals it. -/
abbrev Memory.wf (m : Memory) : Prop := m.Pairwise (fun x y => x.1 < y.1)

/-- The byte at an index, or no value. -/
def Memory.read : Memory → Nat → Option Byte
  | [], _ => none
  | (k, b) :: m, i => if k = i then some b else Memory.read m i

/-- Set the byte at an index, keeping the indices rising. -/
def Memory.write : Memory → Nat → Byte → Memory
  | [], i, v => [(i, v)]
  | (k, b) :: m, i, v =>
    if i < k then (i, v) :: (k, b) :: m
    else if i = k then (i, v) :: m
    else (k, b) :: Memory.write m i v

/-- Any list of cells as a memory in canonical form; a later cell for an index wins. -/
def Memory.ofCells (cells : List Host.Cell) : Memory :=
  cells.foldl (fun m c => Memory.write m c.1 c.2) []

/-- The cells of a memory whose indices a capacity admits (R21). -/
def Memory.below (m : Memory) (cap : Nat) : Memory := m.filter (fun c => decide (c.1 < cap))

/-! ### How a procedure of the spec ends -/

/-- A procedure completes with a value, raises an error with the state its earlier statements left (R11), or makes an
access the spec says no command makes. -/
inductive Res (α : Type) where
  | ok (a : α)
  | raise (e : ErrorCode) (s : State)
  | fault (f : Fault)
  deriving DecidableEq, Repr

/-- Sequencing: "No further statement of that command executes" after a raise (R11). -/
def Res.bind {α β : Type} (r : Res α) (k : α → Res β) : Res β :=
  match r with
  | .ok a => k a
  | .raise e s => .raise e s
  | .fault f => .fault f

/-- `MemRead(i, 1)` (R11, R40). -/
def memRead (i : Nat) (s : State) : Res Byte :=
  if i < s.cap then
    match s.buf.read i with
    | some b => .ok b
    | none => .fault .unspecifiedByte
  else .fault .outsideBuffer

/-- `MemWrite(i, 1, v)` (R11, R40). -/
def memWrite (i : Nat) (v : Byte) (s : State) : Res State :=
  if i < s.cap then .ok { s with buf := s.buf.write i v } else .fault .outsideBuffer

/-- `[ MemRead(off + i, 1) for i from 0 to len - 1 ]` (R86), in increasing index order. -/
def memReadRange (off : Nat) : Nat → State → Res (List Byte)
  | 0, _ => .ok []
  | n + 1, s => (memRead off s).bind fun b => (memReadRange (off + 1) n s).bind fun bs => .ok (b :: bs)

/-! ### Responses and errors -/

/-- `respond(code, data)` (R11, R71). -/
def respond (code : RespCode) (data : List Byte) (s : State) : State :=
  { s with resp := some { code := code, data := data } }

/-- What R182 leaves unspecified after RESOURCE_EXHAUSTED: BUF, WC, BO, ES and CAP become free values, CAP within
R25's range and BUF within R21's indices (log 3). -/
def unspecifyWriter (s : State) : State :=
  let cap := 1 + Config.exhaustedCap s.free % s.params.bufMaxBytes
  { s with
    buf := (Memory.ofCells (Config.exhaustedBuf s.free)).below cap
    wc := Config.exhaustedWc s.free
    bo := Config.exhaustedBo s.free
    es := Config.exhaustedEs s.free
    cap := cap
    free := s.free + 1 }

/-- The record a raised error leaves (R27, R184): ERR ← 1, CAUSE ← E. -/
def recordError (e : ErrorCode) (s : State) : State := { s with err := true, cause := some e }

/-- ErrorEntry (R184): the record, FLT on RESOURCE_EXHAUSTED (R26) with what R182 says of the writer then,
and the response with no data. Every error of the machine goes through here. -/
def errorEntry (e : ErrorCode) (s : State) : State :=
  match e with
  | .resourceExhausted => respond (.error e) [] { unspecifyWriter (recordError e s) with flt := true }
  | _ => respond (.error e) [] (recordError e s)

/-- Refusal while faulted (R185): no state changes and the response carries no data. -/
def refuseFaulted (s : State) : State := respond .refusedFaulted [] s

/-- How a command's procedure becomes the outcome of the command. -/
def conclude (r : Res (State × List Byte)) : Host.Outcome State Fault Refusal :=
  match r with
  | .ok (s, data) => .next (respond .ok data s)
  | .raise e s => .next (errorEntry e s)
  | .fault f => .fault f

/-- A command other than INIT (R163, R183): refused when FLT = 1, else its procedure. -/
def unlessFaulted (body : State → Res (State × List Byte)) (s : State) : Host.Outcome State Fault Refusal :=
  if s.flt = true then .next (refuseFaulted s) else conclude (body s)

/-- A write command's procedure answers OK with no data. -/
def noData (r : Res State) : Res (State × List Byte) := r.bind fun s => .ok (s, [])

/-! ### INIT and reset -/

/-- Every field of R20 to its value of R34; the procedure of INIT (R160) without its response. -/
def initWriter (s : State) : State :=
  { s with
    buf := Memory.write [] 0 0x00#8
    wc := 0
    bo := 0
    es := .noZeros
    cap := s.params.initCapacity
    flt := false
    err := false
    cause := none }

/-- Reset (R200): "the effect of INIT, applied without a command and without a response". -/
def applyReset (s : State) : State := { initWriter s with resp := none }

/-- A reset requested during a command takes effect after the command; whether the command's response gets out is a
free value (R200, U7; log 7). -/
def resetAfterCommand (s : State) : State :=
  { initWriter s with
    resp := if Config.responseLetOut s.free then s.resp else none
    free := s.free + 1 }

/-- A command word that decodes to nothing (R67, R68, R163): refused when FLT = 1, else ILLEGAL_COMMAND. -/
def execIllegal (s : State) : State :=
  if s.flt = true then refuseFaulted s else errorEntry .illegalCommand s

/-! ### The command port -/

/-- The event the host presents next, and the state with it consumed (R29, R31: "BSW keeps no copy"). -/
def nextEvent (s : State) : Option (HostEvent × State) :=
  match s.port with
  | [] => none
  | e :: rest => some (e, { s with port := rest })

/-- The state in which the host presents `c` next, in place of what it would have presented. -/
def present (c : Command) (s : State) : State := { s with port := .command c :: s.port.tail }

end Sys2Proof.Machine
end

