-- ==== Sys2Proof/Machine/Control.lean ====
section
/-! DEFINITION. INIT (spec/44_control.md R160). -/

namespace Sys2Proof.Machine

/-- INIT (R160): every field of R20 to its reset value, whatever FLT is, and OK. It raises nothing. -/
def execInit (s : State) : Host.Outcome State Fault Refusal := .next (respond .ok [] (initWriter s))

end Sys2Proof.Machine
end

