-- ==== Sys2Proof/Machine/Flags.lean ====
section
/-! DEFINITION. The flag-like state and its encodings: EP_NEXT (R120), the codes of ES (R24), of errors and responses
(R180), and the two status outputs (R32, R33, R161, R162). Reading a status output is a function of the state: it
changes nothing (R49). BSW has no condition codes (R30). -/

namespace Sys2Proof.Machine

/-- EP_NEXT (R120): whether to insert an escape byte before the finalized byte b, and the next ES. -/
def epNext (es : EscState) (b : Byte) : Bool × EscState :=
  match es with
  | .twoOrMoreZeros => (decide (b.toNat ≤ Config.epTriggerMax), .noZeros)
  | .noZeros => (false, if b = 0x00#8 then .oneZero else .noZeros)
  | .oneZero => (false, if b = 0x00#8 then .twoOrMoreZeros else .noZeros)

/-- The 2-bit encoding of ES (R24). -/
def escCode : EscState → BitVec 2
  | .noZeros => 0
  | .oneZero => 1
  | .twoOrMoreZeros => 2

/-- The 4-bit code of an error (R180). -/
def errorCode : ErrorCode → BitVec 4
  | .illegalCommand => 1
  | .widthRange => 2
  | .egRange => 3
  | .exportRange => 4
  | .resourceExhausted => 5

/-- CAUSE as its 4-bit register value (R27). -/
def causeCode : Option ErrorCode → BitVec 4
  | none => 0
  | some e => errorCode e

/-- RESP as its 4-bit code (R71, R180). -/
def respCode : RespCode → BitVec 4
  | .ok => 0
  | .error e => errorCode e
  | .refusedFaulted => 6

/-- A bit as a word, for the OR of R161. -/
def bitWord (b : Bool) : Word := if b then 1 else 0

/-- STATUS (R32, R161): zext(BO) | zext(ES) << 4 | zext(FLT) << 8 | zext(ERR) << 9 | zext(CAUSE) << 12. -/
def status (s : State) : Word :=
  s.bo.setWidth 32 ||| (escCode s.es).setWidth 32 <<< 4 ||| bitWord s.flt <<< 8 ||| bitWord s.err <<< 9
    ||| (causeCode s.cause).setWidth 32 <<< 12

/-- WRITTEN_COUNT (R33, R162). -/
def writtenCount (s : State) : Word := s.wc

end Sys2Proof.Machine
end

