-- ==== Sys2Proof/Machine/Operands.lean ====
section
/-! DEFINITION. The operand computations: floor_log2 (R11), the code number's k and L (R140), SE_MAP (R142),
a field's bits (R102) and a bit's place in a byte (R100). All arithmetic is exact (R10). -/

namespace Sys2Proof.Machine

/-- `floor_log2(n)` for n ≥ 1: the L with 2^L ≤ n < 2^(L+1) (R11). -/
def floorLog2 (n : Nat) : Nat := Nat.log2 n

/-- The leading-zero count L of code number m: floor_log2(m + 1), with no 32-bit wrap (R140). -/
def egLeadingZeros (m : Nat) : Nat := floorLog2 (m + 1)

/-- SE_MAP (R142): 2·v − 1 if v > 0, else −2·v. Both are non-negative. -/
def seMap (v : Int) : Nat := if 0 < v then (2 * v - 1).toNat else (-2 * v).toNat

/-- The low w bits of v (R102). -/
def lowBits (v w : Nat) : Nat := v % 2 ^ w

/-- `bit << (7 - BO)`: a bit at the cursor's position of a byte, MSB-first (R41, R100). -/
def bitInByte (bit : Bool) (bo : BitVec 3) : Byte := if bit then BitVec.ofNat 8 (2 ^ (7 - bo.toNat)) else 0x00#8

end Sys2Proof.Machine
end

