-- ==== Sys2Proof/Machine/Packer.lean ====
section
/-! DEFINITION. The internal procedures every write command uses: Grow (R80), the escaper's insertion (R122),
FinalizeByte (R101), PutBit (R100), WriteFixedCore (R102), its chunked form (R105), and UECode (R140). -/

namespace Sys2Proof.Machine

/-- Grow (R80): fewer than HEADROOM_MIN bytes beyond the in-progress byte grow CAP by GROW_INCREMENT, or raise
RESOURCE_EXHAUSTED where that passes BUF_MAX_BYTES. CAP − (WC + 1) on Nat decides `< 4` as on Int (log 15). -/
def grow (s : State) : Res State :=
  if s.cap - (s.wc.toNat + 1) < Config.headroomMin then
    if s.params.bufMaxBytes < s.cap + Config.growIncrement then .raise .resourceExhausted s
    else .ok { s with cap := s.cap + Config.growIncrement }
  else .ok s

/-- `WC <- WC + 1`. R84 keeps it from wrapping: Grow has left CAP ≥ WC + 5 (log 18). -/
def bumpWc (s : State) : State := { s with wc := s.wc + 1 }

/-- The escaper on the just-finalized byte b (R101, R121, R122): ES moves, and an insertion stores 0x03 at the byte's
slot, the byte after it, and advances WC by one extra position. -/
def escapeFinalized (b : Byte) (s : State) : Res State :=
  let (insert, next) := epNext s.es b
  let s := { s with es := next }
  if insert then
    (memWrite s.wc.toNat Config.escapeByte s).bind fun s =>
    (memWrite (s.wc.toNat + 1) b s).bind fun s =>
    .ok (bumpWc s)
  else .ok s

/-- The end of FinalizeByte (R101): advance WC, zero the new in-progress byte, BO ← 0. -/
def startByte (s : State) : Res State :=
  let s := bumpWc s
  (memWrite s.wc.toNat 0x00#8 s).bind fun s => .ok { s with bo := 0 }

/-- FinalizeByte (R101). With esc = 0, ES is neither read nor written (R123). -/
def finalizeByte (esc : Bool) (s : State) : Res State :=
  (grow s).bind fun s =>
  (memRead s.wc.toNat s).bind fun b =>
  (if esc then escapeFinalized b s else .ok s).bind fun s =>
  startByte s

/-- PutBit (R100). -/
def putBit (esc bit : Bool) (s : State) : Res State :=
  (memRead s.wc.toNat s).bind fun b =>
  (memWrite s.wc.toNat (b ||| bitInByte bit s.bo) s).bind fun s =>
  if s.bo.toNat + 1 = 8 then finalizeByte esc s else .ok { s with bo := s.bo + 1 }

/-- `for i from w - 1 downto 0: PutBit(n[i], esc)` (R102). -/
def putBits (esc : Bool) (n : Nat) : Nat → State → Res State
  | 0, s => .ok s
  | i + 1, s => (putBit esc (n.testBit i) s).bind fun s => putBits esc n i s

/-- WriteFixedCore (R102): the low w bits of v, most significant first. -/
def writeFixedCore (esc : Bool) (v w : Nat) (s : State) : Res State := putBits esc (lowBits v w) w s

/-- UECode (R140): the code of code number m. -/
def ueCode (m : Nat) (s : State) : Res State :=
  let k := m + 1
  let l := egLeadingZeros m
  if Config.egMaxL < l then .raise .egRange s
  else if l < Config.egSplitL then writeFixedCore true k (2 * l + 1) s
  else (writeFixedCore true 0 l s).bind fun s => writeFixedCore true k (l + 1) s

/-! ### The source's chunked procedure (R105) -/

/-- One turn of R105's loop: place the top c bits of the normalized 32-bit value n. -/
def putChunk (esc : Bool) (n c : Nat) (s : State) : Res State :=
  let chunk := n / 2 ^ (32 - c)
  let free := 8 - s.bo.toNat
  (memRead s.wc.toNat s).bind fun b =>
  if c < free then
    (memWrite s.wc.toNat (b ||| BitVec.ofNat 8 (chunk * 2 ^ (free - c))) s).bind fun s =>
    .ok { s with bo := BitVec.ofNat 3 (s.bo.toNat + c) }
  else
    (memWrite s.wc.toNat (b ||| BitVec.ofNat 8 (chunk / 2 ^ (c - free))) s).bind fun s =>
    (finalizeByte esc s).bind fun s =>
    (memWrite s.wc.toNat (BitVec.ofNat 8 (chunk % 2 ^ (c - free) * 2 ^ (8 - (c - free)))) s).bind fun s =>
    .ok { s with bo := BitVec.ofNat 3 (c - free) }

/-- R105's loop over the remaining width r, at most `turns` times; 4 turns of up to 8 bits cover 32. -/
def putChunks (esc : Bool) : Nat → Nat → Nat → State → Res State
  | 0, _, _, s => .ok s
  | turns + 1, n, r, s =>
    if r = 0 then .ok s
    else
      let c := min 8 r
      (putChunk esc n c s).bind fun s => putChunks esc turns (n * 2 ^ c % 2 ^ 32) (r - c) s

/-- WriteFixedChunked (R105). The commands use `writeFixedCore`; this form is stated equal to it. -/
def writeFixedChunked (esc : Bool) (v w : Nat) (s : State) : Res State :=
  putChunks esc 4 (v * 2 ^ (32 - w) % 2 ^ 32) w s

end Sys2Proof.Machine
end

