-- ==== Sys2Proof/Machine/ExpGolomb.lean ====
section
/-! DEFINITION. WRITE_UE and WRITE_SE (spec/43_exp_golomb.md R141, R143). Both always escape. -/

namespace Sys2Proof.Machine

/-- WRITE_UE value (R141, R163). -/
def execWriteUE (value : Nat) (s : State) : Host.Outcome State Fault Refusal :=
  unlessFaulted (fun s => noData (ueCode value s)) s

/-- WRITE_SE value (R143, R163): the zig-zag code number, then the unsigned encoder. -/
def execWriteSE (value : Int) (s : State) : Host.Outcome State Fault Refusal :=
  unlessFaulted (fun s => noData (ueCode (seMap value) s)) s

end Sys2Proof.Machine
end

