-- ==== Sys2Proof/Machine/FixedWidth.lean ====
section
/-! DEFINITION. WRITE_FIXED (spec/41_bit_packer.md R103). -/

namespace Sys2Proof.Machine

/-- WRITE_FIXED's procedure (R103): the width check before any effect, then WriteFixedCore. -/
def writeFixedBody (value width : Nat) (esc : Bool) (s : State) : Res (State × List Byte) :=
  if width < Config.minWidth ∨ Config.maxWidth < width then .raise .widthRange s
  else noData (writeFixedCore esc value width s)

/-- WRITE_FIXED value, width, esc (R103, R163). -/
def execWriteFixed (value width : Nat) (esc : Bool) (s : State) : Host.Outcome State Fault Refusal :=
  unlessFaulted (writeFixedBody value width esc) s

end Sys2Proof.Machine
end

