-- ==== Sys2Proof/Machine/Readout.lean ====
section
/-! DEFINITION. EXPORT (spec/40_growable_buffer.md R86). -/

namespace Sys2Proof.Machine

/-- EXPORT's procedure (R86): the exact range check, then a copy of the bytes; nothing is written. -/
def exportBody (offset length : Nat) (s : State) : Res (State × List Byte) :=
  if s.wc.toNat < offset + length then .raise .exportRange s
  else (memReadRange offset length s).bind fun data => .ok (s, data)

/-- EXPORT byte_offset, byte_length (R86, R163). -/
def execExport (offset length : Nat) (s : State) : Host.Outcome State Fault Refusal :=
  unlessFaulted (exportBody offset length) s

end Sys2Proof.Machine
end

