-- ==== Sys2Proof/Machine/Dispatch.lean ====
section
/-! DEFINITION. Dispatch of a decoded command to its meaning (spec/44_control.md R163), one arm per constructor. -/

namespace Sys2Proof.Machine

def exec (i : Instr) (s : State) : Host.Outcome State Fault Refusal :=
  match i with
  | .init => Sys2Proof.Machine.execInit s
  | .writeFixed value width esc => Sys2Proof.Machine.execWriteFixed value width esc s
  | .writeUE value => Sys2Proof.Machine.execWriteUE value s
  | .writeSE value => Sys2Proof.Machine.execWriteSE value s
  | .exportBytes offset length => Sys2Proof.Machine.execExport offset length s

end Sys2Proof.Machine
end

