-- ==== Sys2Proof/Machine/Step.lean ====
section
/-! DEFINITION. One step: the machine takes the host's next event (R29, R163, R200). -/

namespace Sys2Proof.Machine

/-- Execute(CMD, ARG0, ARG1) (R163): every 96-bit command reaches exactly one response. -/
def execCommand (c : Command) (s : State) : Host.Outcome State Fault Refusal :=
  match decode c with
  | some i => exec i s
  | none => .next (execIllegal s)

/-- A command during which a reset is requested (R200): the command completes, then the reset takes effect. -/
def execThenReset (c : Command) (s : State) : Host.Outcome State Fault Refusal :=
  match execCommand c s with
  | .next t => .next (resetAfterCommand t)
  | .fault f => .fault f
  | .refused r => .refused r

/-- One step takes the event the host presents next; with none, the machine idles and holds its state (R195). -/
def step (s : State) : Host.Outcome State Fault Refusal :=
  match nextEvent s with
  | none => .next s
  | some (.command c, t) => execCommand c t
  | some (.reset, t) => .next (applyReset t)
  | some (.commandThenReset c, t) => execThenReset c t

/-- `s` with the host presenting, as its next command, the words the opcode table numbers as `w` (log 10). -/
def State.withFetchWord (s : State) (nbits w : Nat) : State := present (Command.ofTableWord nbits w) s

end Sys2Proof.Machine
end

