-- ==== Sys2Proof/Machine/HostMacros.lean ====
section
/-! DEFINITION. The host-side pseudo-instructions of spec/30_encoding.md R73 and the unit of R74. BSW has no such
command: each expands to commands before it reaches the port. -/

namespace Sys2Proof.Machine

/-- STATUS.BIT_OFFSET, bits 2:0 of a STATUS word the host has read (R32). -/
def statusBitOffset (st : Word) : Nat := st.toNat % 8

/-- ALIGN (R73, R206): from the STATUS word the host read, pad to a byte boundary, or nothing when aligned. -/
def macroAlign (st : Word) : List Instr :=
  if statusBitOffset st = 0 then [] else [.writeFixed 0 (8 - statusBitOffset st) false]

/-- STARTCODE3 (R73). -/
def macroStartCode3 : List Instr := [.writeFixed 0x000001 24 false]

/-- STARTCODE4 (R73). PRESUMED (log 17): the spec takes the value from general knowledge (G2). -/
def macroStartCode4 : List Instr := [.writeFixed 0x00000001 32 false]

/-- UNIT_HEADER f, p, t (R73). -/
def macroUnitHeader (f p t : Nat) : List Instr :=
  [.writeFixed f 1 false, .writeFixed p 2 false, .writeFixed t 5 false]

/-- STOP (R73), escape 1 (D27). -/
def macroStop : List Instr := [.writeFixed 1 1 true]

/-- A unit (R74): ALIGN from the STATUS word read before it, a start code, the header, the payload, STOP. -/
def macroUnit (st : Word) (startCode : List Instr) (f p t : Nat) (payload : List Instr) : List Instr :=
  macroAlign st ++ startCode ++ macroUnitHeader f p t ++ payload ++ macroStop

end Sys2Proof.Machine
end

