-- ==== Sys2Proof/Safety.lean ====
section
/-! DEFINITION. The terms claims are stated in: the invariants of R28, the streams a state holds, what a write of
given bits does to them, the escaper on whole byte sequences with the de-escaper of R126, and the decoders of R145.
The decoders are laws about the output, not hardware (R5). -/

namespace Sys2Proof.Safety

open Sys2Proof.Machine

/-! ### Bits and bytes (R41, R42) -/

/-- The bits of a byte, most significant first (R41). -/
def byteBits (b : Byte) : List Bool := (List.range 8).map fun j => b.getLsbD (7 - j)

/-- The w bits of a field, bit w − 1 first (R42, R102). -/
def fieldBits (v w : Nat) : List Bool := (List.range w).map fun j => v.testBit (w - 1 - j)

/-- The number a list of bits denotes, most significant first. -/
def bitsValue (bits : List Bool) : Nat := bits.foldl (fun n b => 2 * n + b.toNat) 0

/-- At most 8 bits placed from bit 7 down in a byte that was zero (R28 I2, R100). -/
def bitsByte (bits : List Bool) : Byte :=
  BitVec.ofNat 8 (bitsValue bits * 2 ^ (8 - bits.length))

/-- The bytes that a bit sequence starting at a byte boundary completes (R100, R101). -/
def fullBytes : List Bool → List Byte
  | a :: b :: c :: d :: e :: f :: g :: h :: bits => bitsByte [a, b, c, d, e, f, g, h] :: fullBytes bits
  | _ => []

/-- The bits that are left in the in-progress byte. -/
def restBits : List Bool → List Bool
  | _ :: _ :: _ :: _ :: _ :: _ :: _ :: _ :: bits => restBits bits
  | bits => bits

/-! ### What a state holds -/

/-- BUF[WC], the in-progress byte (R21). -/
def inProgress (s : State) : Byte := (s.buf.read s.wc.toNat).getD 0x00#8

/-- The BO bits already placed in the in-progress byte (R23). -/
def pendingBits (s : State) : List Bool := (byteBits (inProgress s)).take s.bo.toNat

/-- BUF[0 .. WC − 1], the physical stream (R21, R22). -/
def finalizedBytes (s : State) : List Byte := (List.range s.wc.toNat).map fun i => (s.buf.read i).getD 0x00#8

/-- CAP_MAX (R85): the largest INIT_CAPACITY + k·1024 that is at most BUF_MAX_BYTES. -/
def capMax (p : Config.Params) : Nat := p.initCapacity + (p.bufMaxBytes - p.initCapacity) / 1024 * 1024

/-- The invariants of a running writer (R28, R47, R85). -/
structure Live (s : State) : Prop where
  /-- I1: the in-progress byte exists. -/
  room : s.wc.toNat + 1 ≤ s.cap
  /-- R47: every finalized byte and the in-progress byte hold a value. -/
  written : ∀ i < s.wc.toNat + 1, (s.buf.read i).isSome = true
  /-- I2: the bits of the in-progress byte not yet written are 0. -/
  clean : (inProgress s).toNat % 2 ^ (8 - s.bo.toNat) = 0
  /-- CAP is INIT_CAPACITY grown by whole increments. -/
  capForm : s.params.initCapacity ≤ s.cap ∧ (s.cap - s.params.initCapacity) % 1024 = 0

/-- What holds in every state the machine reaches; the writer's part while no fault is latched (R182). -/
structure Inv (s : State) : Prop where
  /-- R7. -/
  legal : s.params.Legal
  /-- The memory keeps its canonical form. -/
  wf : s.buf.wf
  /-- R21: BUF has the indices 0 to CAP − 1. -/
  below : ∀ c ∈ s.buf, c.1 < s.cap
  /-- R25. -/
  capRange : 1 ≤ s.cap ∧ s.cap ≤ s.params.bufMaxBytes
  /-- R27: ERR is set exactly when CAUSE holds a code. -/
  errCause : s.err = s.cause.isSome
  /-- R26, R27, R185: FLT is set exactly while CAUSE is RESOURCE_EXHAUSTED. -/
  fltCause : s.flt = true ↔ s.cause = some .resourceExhausted
  /-- R28 while no fault is latched. -/
  live : s.flt = false → Live s

/-! ### The escaper on byte sequences (R120 to R126) -/

/-- The physical bytes of a sequence of finalizations, each with its escape flag, from ES = es, and the ES after.
Every physical byte carries whether it was finalized unescaped (R126's set U) and whether it is an inserted byte. -/
def emitMarked : EscState → List (Byte × Bool) → List (Byte × Bool × Bool) × EscState
  | es, [] => ([], es)
  | es, (b, false) :: bs =>
    let r := emitMarked es bs
    ((b, true, false) :: r.1, r.2)
  | es, (b, true) :: bs =>
    let n := epNext es b
    let r := emitMarked n.2 bs
    (if n.1 then (Config.escapeByte, false, true) :: (b, false, false) :: r.1 else (b, false, false) :: r.1, r.2)

/-- The physical bytes alone. -/
def emitBytes (es : EscState) (bs : List (Byte × Bool)) : List Byte := (emitMarked es bs).1.map (·.1)

/-- The ES after the finalizations (R28 I5). -/
def emitEs (es : EscState) (bs : List (Byte × Bool)) : EscState := (emitMarked es bs).2

/-- The number of escape bytes the finalizations insert. -/
def insertions (es : EscState) (bs : List (Byte × Bool)) : Nat := ((emitMarked es bs).1.filter (·.2.2)).length

/-- Unescape(P, U) of R126 from state s; each byte carries whether its index is in U. -/
def unescape : EscState → List (Byte × Bool) → List Byte
  | _, [] => []
  | s, (b, true) :: p => b :: unescape s p
  | s, (b, false) :: p =>
    if s = .twoOrMoreZeros ∧ b = 0x03#8 then
      match p with
      | [] => []
      | (b', _) :: p' => b' :: unescape (epNext s b').2 p'
    else b :: unescape (epNext s b).2 p

/-! ### What a write command does -/

/-- The bytes that writing `bits` finalizes, each with the write's escape flag: the completing write decides (R106). -/
def finalizes (s : State) (bits : List Bool) (esc : Bool) : List (Byte × Bool) :=
  (fullBytes (pendingBits s ++ bits)).map fun b => (b, esc)

/-- The cursor index WC at the write's last finalization. -/
def lastCursor (s : State) (bits : List Bool) (esc : Bool) : Nat :=
  s.wc.toNat + (emitBytes s.es (finalizes s bits esc).dropLast).length

/-- The write completes: it finalizes nothing, or its last finalization is within CAP_MAX (R82, R85). -/
abbrev Fits (s : State) (bits : List Bool) (esc : Bool) : Prop :=
  finalizes s bits esc = [] ∨ lastCursor s bits esc + 5 ≤ capMax s.params

/-- The state t after a write of `bits` that completes from s: everything that changed, and that nothing else did. -/
structure WriteEffect (s t : State) (bits : List Bool) (esc : Bool) : Prop where
  /-- The finalized bytes, escaped by EP_NEXT, follow the earlier ones (R101, R122, R123; I4). -/
  stream : finalizedBytes t = finalizedBytes s ++ emitBytes s.es (finalizes s bits esc)
  /-- The bits not yet filling a byte are in the new in-progress byte, and the rest of it is 0 (R100; I2). -/
  progress : t.buf.read t.wc.toNat = some (bitsByte (restBits (pendingBits s ++ bits)))
  /-- WC counts the finalized bytes (R22). -/
  wc : t.wc.toNat = s.wc.toNat + (emitBytes s.es (finalizes s bits esc)).length
  /-- BO counts the bits in the in-progress byte (R23). -/
  bo : t.bo.toNat = (s.bo.toNat + bits.length) % 8
  /-- ES has seen exactly the bytes finalized escaped (I5). -/
  es : t.es = emitEs s.es (finalizes s bits esc)
  /-- CAP grows by one increment when the last finalization needs it (R80). -/
  cap : t.cap = if finalizes s bits esc ≠ [] ∧ s.cap < lastCursor s bits esc + 5 then s.cap + 1024 else s.cap
  /-- Every other byte of BUF is as before. -/
  others : ∀ a, a < s.wc.toNat ∨ t.wc.toNat < a → t.buf.read a = s.buf.read a
  /-- Every other field is as before, and the response is OK with no data. -/
  frame : t = { s with buf := t.buf, wc := t.wc, bo := t.bo, es := t.es, cap := t.cap, resp := some ⟨.ok, []⟩ }

/-- The bits of a physical stream and its in-progress byte (R42). -/
def physicalBits (s : State) : List Bool := (finalizedBytes s).flatMap byteBits ++ pendingBits s

/-- The logical bits an escaped write put between s and t: the new physical bytes de-escaped by R126, and the pending
bits, without the bits that were pending before. -/
def newLogicalBits (s t : State) : List Bool :=
  ((unescape s.es (((finalizedBytes t).drop s.wc.toNat).map fun b => (b, false))).flatMap byteBits ++ pendingBits t).drop
    s.bo.toNat

/-- The code of a code number m: L zeros, a 1, and the L-bit suffix m + 1 − 2^L (R140). -/
def ueBits (m : Nat) : List Bool :=
  List.replicate (Nat.log2 (m + 1)) false ++ true :: fieldBits (m + 1 - 2 ^ Nat.log2 (m + 1)) (Nat.log2 (m + 1))

/-- The bits a write command writes (R102, R140, R142), `none` for any other command or operand. -/
def writtenBits : Instr → Option (List Bool × Bool)
  | .writeFixed v w esc => if 1 ≤ w ∧ w ≤ 32 then some (fieldBits v w, esc) else none
  | .writeUE m =>
    if m ≤ 131070 then some (ueBits m, true) else none
  | .writeSE v =>
    if -65535 ≤ v ∧ v ≤ 65535 then
      some (ueBits (if 0 < v then (2 * v - 1).toNat else (-2 * v).toNat), true)
    else none
  | .init => none
  | .exportBytes _ _ => none

/-- The logical bytes that a sequence of writes finalizes, with the flag of the write that completed each (R106, R126),
from the bits pending before it. -/
def logicalBytes : List Bool → List Instr → List (Byte × Bool)
  | _, [] => []
  | pend, i :: is =>
    match writtenBits i with
    | some (bits, esc) => (fullBytes (pend ++ bits)).map (fun b => (b, esc)) ++ logicalBytes (restBits (pend ++ bits)) is
    | none => logicalBytes pend is

/-- The state after commands that all answer OK, `none` when one does not. -/
def runOk : List Instr → State → Option State
  | [], s => some s
  | i :: is, s =>
    match exec i s with
    | .next t => if t.resp.map (·.code) = some .ok then runOk is t else none
    | _ => none

/-- The state after commands that all answer, whatever the answers. -/
def runAll : List Instr → State → Option State
  | [], s => some s
  | i :: is, s =>
    match exec i s with
    | .next t => runAll is t
    | _ => none

/-- The response of a command that exhausts the storage (R180, R184). -/
abbrev exhaustedResponse : Response := { code := .error .resourceExhausted, data := [] }

/-- The response of a command that completes with no data (R71). -/
abbrev okResponse : Response := { code := .ok, data := [] }

/-! ### The decoders of R145 -/

/-- Read one unsigned code: count the zeros before the first 1, skip it, read as many bits. -/
def ueDecodeFrom : Nat → List Bool → Option (Nat × List Bool)
  | _, [] => none
  | l, false :: bits => ueDecodeFrom (l + 1) bits
  | l, true :: bits => if bits.length < l then none else some (2 ^ l - 1 + bitsValue (bits.take l), bits.drop l)

/-- The standard leading-zero-count, prefix, suffix rule. -/
def ueDecode (bits : List Bool) : Option (Nat × List Bool) := ueDecodeFrom 0 bits

/-- The inverse of SE_MAP: (m + 1) / 2 for odd m, −(m / 2) for even m. -/
def seUnmap (m : Nat) : Int := if m % 2 = 1 then ((m + 1) / 2 : Nat) else -((m / 2 : Nat) : Int)

end Sys2Proof.Safety
end

