-- ==== Sys2Proof/Certificates/Slice0/Obligations.lean ====
section
/-! DEFINITION. The statements for the provers. Each formalises rules of spec/; each holds of every legal choice of the
two open parameters (log 1) and of every free value (log 3, log 7), since it quantifies over the state that holds them. -/

open Sys2Proof Sys2Proof.Machine Sys2Proof.Safety

/-! ### Encoding (R60 to R72) -/

/-- R72, R70: every instruction whose literals fit its fields is decoded back from its command words. -/
def Obligations.DecodeEncodeRoundTrip : Prop :=
  ∀ i : Instr, i.wellFormed = true → decode (encode i) = some i

/-- R70: decoding agrees with the five match/mask pairs, every operand is the whole of its field or word, words that an
operation ignores play no part (R66), and everything else is Illegal. -/
def Obligations.DecodeMatchesMaskPairs : Prop :=
  ∀ c : Command,
    (decode c = some .init ↔ c.cmd = 0x00000001#32) ∧
    (∀ v w e, decode c = some (.writeFixed v w e) ↔
      c.cmd &&& 0xFFFFF80F#32 = 0x00000002#32 ∧ v = c.arg0.toNat ∧ w = (c.cmd.extractLsb' 5 6).toNat ∧
        e = c.cmd.getLsbD 4) ∧
    (∀ v, decode c = some (.writeUE v) ↔ c.cmd = 0x00000003#32 ∧ v = c.arg0.toNat) ∧
    (∀ v, decode c = some (.writeSE v) ↔ c.cmd = 0x00000004#32 ∧ v = c.arg0.toInt) ∧
    (∀ o l, decode c = some (.exportBytes o l) ↔ c.cmd = 0x00000005#32 ∧ o = c.arg0.toNat ∧ l = c.arg1.toNat) ∧
    (decode c = none ↔
      c.cmd ≠ 0x00000001#32 ∧ c.cmd &&& 0xFFFFF80F#32 ≠ 0x00000002#32 ∧ c.cmd ≠ 0x00000003#32 ∧
        c.cmd ≠ 0x00000004#32 ∧ c.cmd ≠ 0x00000005#32)

/-- R61, R65: what the decoder reads fits the fields, and is encoded to the same CMD word. -/
def Obligations.DecodedInstrReencodes : Prop :=
  ∀ (c : Command) (i : Instr), decode c = some i →
    i.wellFormed = true ∧ (encode i).cmd = c.cmd ∧ decode (encode i) = some i

/-- R61 to R66, words of 95_test_vectors.md: a command word of each of the five decodes to its instruction. -/
def Obligations.WrittenOutWordsDecode : Prop :=
  decode ⟨0x00000001#32, 0xFFFFFFFF#32, 0xFFFFFFFF#32⟩ = some .init ∧
  decode ⟨0x00000302#32, 0x00000001#32, 0#32⟩ = some (.writeFixed 1 24 false) ∧
  decode ⟨0x00000412#32, 0xFFFFFFFF#32, 0#32⟩ = some (.writeFixed 0xFFFFFFFF 32 true) ∧
  decode ⟨0x00000003#32, 0x0001FFFE#32, 0x12345678#32⟩ = some (.writeUE 131070) ∧
  decode ⟨0x00000004#32, 0xFFFF0001#32, 0#32⟩ = some (.writeSE (-65535)) ∧
  decode ⟨0x00000005#32, 0#32, 11#32⟩ = some (.exportBytes 0 11) ∧
  decode ⟨0x00000000#32, 0#32, 0#32⟩ = none

/-! ### Stepping (R29, R163, R195, R200) -/

/-- R163: a step on a command whose words decode runs the instruction, on the state with the command consumed. -/
def Obligations.StepRunsDecodedCommand : Prop :=
  ∀ (s : State) (c : Command) (rest : List HostEvent) (i : Instr),
    s.port = .command c :: rest → decode c = some i → step s = exec i { s with port := rest }

/-- R67, R68: a CMD word with RSVD ≠ 0, with ESC or WIDTH on an OP other than WRITE_FIXED, or with a reserved OP performs
nothing and answers ILLEGAL_COMMAND, or REFUSED_FAULTED while FLT = 1; so does a malformed INIT. -/
def Obligations.MalformedWordsAreIllegal : Prop :=
  ∀ (s : State) (c : Command) (rest : List HostEvent),
    s.port = .command c :: rest →
    (c.cmd.extractLsb' 11 21 ≠ 0#21 ∨
      (c.cmd.extractLsb' 0 4 ≠ 2#4 ∧ (c.cmd.getLsbD 4 = true ∨ c.cmd.extractLsb' 5 6 ≠ 0#6)) ∨
      c.cmd.extractLsb' 0 4 = 0#4 ∨ 6 ≤ (c.cmd.extractLsb' 0 4).toNat) →
    step s = .next
      (if s.flt = true then { s with port := rest, resp := some ⟨.refusedFaulted, []⟩ }
      else
        { s with
          port := rest, err := true, cause := some .illegalCommand, resp := some ⟨.error .illegalCommand, []⟩ })

/-- R195, R20: with nothing presented the machine holds its state, however many steps pass. R195's state is R20's tuple;
that an empty list of host events makes a step idle (log 5), and that an idle step keeps the last response and the other
fields of the model's own (log 6, log 4), are the model's choices (DESIGN CHOICE), not the spec's. -/
def Obligations.IdleHoldsState : Prop :=
  ∀ (n : Nat) (s : State), s.port = [] → Host.Core.run core n s = .next s

/-- R200: reset gives every piece of state its value of R34, without a response, whatever FLT is; requested during a
command, it takes effect after the command, whose response gets out or not. The free-value counter is the model's own
field (log 4), and which of the two happens to the response is a free value (log 7). That BUF above index 0 holds no value
(log 2) and that a reset event clears the held response (log 6) are the model's choices (DESIGN CHOICE). -/
def Obligations.ResetSetsEveryField : Prop :=
  ∀ (s : State) (rest : List HostEvent),
    (s.port = .reset :: rest →
      step s = .next
        { s with
          buf := [(0, 0x00#8)], wc := 0, bo := 0, es := .noZeros, cap := s.params.initCapacity, flt := false,
          err := false, cause := none, port := rest, resp := none }) ∧
    (∀ (c : Command) (t : State), s.port = .commandThenReset c :: rest →
      execCommand c { s with port := rest } = .next t →
      ∃ r, (r = t.resp ∨ r = none) ∧
        step s = .next
          { s with
            buf := [(0, 0x00#8)], wc := 0, bo := 0, es := .noZeros, cap := s.params.initCapacity, flt := false,
            err := false, cause := none, port := rest, resp := r, free := t.free + 1 })

/-- R34: the table of values after reset and after INIT, and the two status outputs then; INIT completes in every state,
whatever FLT is, and answers OK. BUF above index 0 holds no value: log 2. -/
def Obligations.ResetAndInitValues : Prop :=
  (∀ p : Config.Params,
    let r := State.resetWith p
    r.buf.read 0 = some 0x00#8 ∧ (∀ a, a ≠ 0 → r.buf.read a = none) ∧ r.wc = 0 ∧ r.bo = 0 ∧ r.es = .noZeros ∧
      r.cap = p.initCapacity ∧ r.flt = false ∧ r.err = false ∧ r.cause = none ∧ status r = 0x00000000#32 ∧
      writtenCount r = 0) ∧
  (∀ s : State, ∃ t, exec .init s = .next t ∧
    t = { s with
      buf := [(0, 0x00#8)], wc := 0, bo := 0, es := .noZeros, cap := s.params.initCapacity, flt := false, err := false,
      cause := none, resp := some okResponse } ∧
    status t = 0x00000000#32 ∧ writtenCount t = 0)

/-! ### Errors (R26, R27, R71, R180 to R187) -/

/-- R185: while FLT = 1 every command other than an exact INIT, well-formed or not, changes no state and answers
REFUSED_FAULTED with no data; ERR and CAUSE are 1 and 5 then. -/
def Obligations.RefusedWhileFaulted : Prop :=
  ∀ (s : State) (c : Command) (rest : List HostEvent),
    s.flt = true → s.port = .command c :: rest →
    (c.cmd ≠ 0x00000001#32 → step s = .next { s with port := rest, resp := some ⟨.refusedFaulted, []⟩ }) ∧
    (Inv s → s.err = true ∧ causeCode s.cause = 5#4)

/-- R181: a command that answers an error other than RESOURCE_EXHAUSTED changed ERR, CAUSE and the response only. -/
def Obligations.ContractViolationsTakeNoEffect : Prop :=
  ∀ (s t : State) (c : Command) (rest : List HostEvent) (e : ErrorCode) (data : List Byte),
    s.port = .command c :: rest → step s = .next t → t.resp = some ⟨.error e, data⟩ → e ≠ .resourceExhausted →
    s.flt = false ∧
      t = { s with port := rest, err := true, cause := some e, resp := some ⟨.error e, []⟩ }

/-- R26, R27: what each response records: an error sets ERR and CAUSE, and FLT when it is RESOURCE_EXHAUSTED; OK and a
refusal change none of them; only INIT clears them; while FLT = 1 only INIT is not refused. -/
def Obligations.ResponseRecordsErrors : Prop :=
  ∀ (s t : State) (c : Command) (rest : List HostEvent),
    s.port = .command c :: rest → step s = .next t →
    (c.cmd = 0x00000001#32 → t.flt = false ∧ t.err = false ∧ t.cause = none) ∧
    (c.cmd ≠ 0x00000001#32 →
      ∃ r, t.resp = some r ∧ (s.flt = true → r.code = .refusedFaulted) ∧
        match r.code with
        | .ok => t.flt = s.flt ∧ t.err = s.err ∧ t.cause = s.cause
        | .error e =>
          t.flt = (s.flt || decide (e = .resourceExhausted)) ∧ t.err = true ∧ t.cause = some e ∧ r.data = []
        | .refusedFaulted => t.flt = s.flt ∧ t.err = s.err ∧ t.cause = s.cause)

/-- R183: exactly one response, the first of INIT, REFUSED_FAULTED, ILLEGAL_COMMAND, the operand check, execution. -/
def Obligations.ResponsePriority : Prop :=
  ∀ (s : State) (c : Command) (rest : List HostEvent),
    Inv s → s.port = .command c :: rest →
    ∃ t r, step s = .next t ∧ t.resp = some r ∧
      (c.cmd = 0x00000001#32 → r.code = .ok) ∧
      (c.cmd ≠ 0x00000001#32 → s.flt = true → r.code = .refusedFaulted) ∧
      (c.cmd ≠ 0x00000001#32 → s.flt = false →
        match decode c with
        | none => r.code = .error .illegalCommand
        | some .init => False
        | some (.writeFixed _ w _) =>
          if w = 0 ∨ 32 < w then r.code = .error .widthRange
          else r.code = .ok ∨ r.code = .error .resourceExhausted
        | some (.writeUE m) =>
          if 131071 ≤ m then r.code = .error .egRange else r.code = .ok ∨ r.code = .error .resourceExhausted
        | some (.writeSE v) =>
          if v ≤ -65536 ∨ 65536 ≤ v then r.code = .error .egRange
          else r.code = .ok ∨ r.code = .error .resourceExhausted
        | some (.exportBytes o l) =>
          if s.wc.toNat < o + l then r.code = .error .exportRange else r.code = .ok)

/-- R86, R103, R141, R143: where a form is rejected, and that ERR, CAUSE and the response are all it changes. -/
def Obligations.OperandChecksReject : Prop :=
  ∀ s : State, s.flt = false →
    (∀ v w esc, w = 0 ∨ 32 < w → exec (.writeFixed v w esc) s =
      .next { s with err := true, cause := some .widthRange, resp := some ⟨.error .widthRange, []⟩ }) ∧
    (∀ m, 131071 ≤ m → exec (.writeUE m) s =
      .next { s with err := true, cause := some .egRange, resp := some ⟨.error .egRange, []⟩ }) ∧
    (∀ v, v ≤ -65536 ∨ 65536 ≤ v → exec (.writeSE v) s =
      .next { s with err := true, cause := some .egRange, resp := some ⟨.error .egRange, []⟩ }) ∧
    (∀ o l, s.wc.toNat < o + l → exec (.exportBytes o l) s =
      .next { s with err := true, cause := some .exportRange, resp := some ⟨.error .exportRange, []⟩ })

/-- R71: every command returns one response; DATA is non-empty only for an EXPORT that answers OK with length > 0, and then
holds the exported bytes in increasing index order; no code above 6. -/
def Obligations.EveryCommandAnswersOnce : Prop :=
  ∀ (s t : State) (c : Command) (rest : List HostEvent),
    s.port = .command c :: rest → step s = .next t →
    ∃ r, t.resp = some r ∧ (respCode r.code).toNat ≤ 6 ∧
      (r.data ≠ [] →
        r.code = .ok ∧ ∃ o l, decode c = some (.exportBytes o l) ∧ 0 < l ∧ r.data.length = l ∧
          ∀ k < l, s.buf.read (o + k) = r.data[k]?)

/-- R186: FLT is left only by INIT or by reset. -/
def Obligations.OnlyInitOrResetLeaveFault : Prop :=
  ∀ s t : State, s.flt = true → step s = .next t → t.flt = false →
    ∃ rest, s.port = .reset :: rest ∨ (∃ c, s.port = .commandThenReset c :: rest) ∨
      ∃ c : Command, s.port = .command c :: rest ∧ c.cmd = 0x00000001#32

/-- R7, R20, R202: no step changes the two parameters, and a step consumes the event it took and no other. That the host's
events are a list of which each step takes one is the model's choice (DESIGN CHOICE, log 5). -/
def Obligations.ConfigurationIsFixed : Prop :=
  ∀ s t : State, step s = .next t → t.params = s.params ∧ t.port = s.port.tail

/-! ### The writes (R80 to R85, R100 to R107, R120 to R124, R140 to R146) -/

/-- R100 to R103, R120 to R123: WRITE_FIXED with a legal width completes from every running writer within CAP_MAX, with
the effect of its bits and nothing else. -/
def Obligations.WriteFixedCompletes : Prop :=
  ∀ (s : State) (v w : Nat) (esc : Bool), Inv s → s.flt = false → 1 ≤ w → w ≤ 32 → Fits s (fieldBits v w) esc →
    ∃ t, exec (.writeFixed v w esc) s = .next t ∧ WriteEffect s t (fieldBits v w) esc

/-- R140, R141: WRITE_UE of an accepted code number completes with the effect of writing L zeros, a 1 and the suffix,
escaped. -/
def Obligations.WriteUECompletes : Prop :=
  ∀ (s : State) (m : Nat), Inv s → s.flt = false → m ≤ 131070 → Fits s (ueBits m) true →
    ∃ t, exec (.writeUE m) s = .next t ∧ WriteEffect s t (ueBits m) true

/-- R142, R143: WRITE_SE of an accepted value completes with the effect of writing the code of 2·v − 1 or −2·v, escaped. -/
def Obligations.WriteSECompletes : Prop :=
  ∀ (s : State) (v : Int) (m : Nat), Inv s → s.flt = false → -65535 ≤ v → v ≤ 65535 →
    (m : Int) = (if 0 < v then 2 * v - 1 else -2 * v) → Fits s (ueBits m) true →
    ∃ t, exec (.writeSE v) s = .next t ∧ WriteEffect s t (ueBits m) true

/-- R82, R85, R182, R184: a write whose last finalization is past CAP_MAX answers RESOURCE_EXHAUSTED and latches the
fault. What the writer holds then is a free value (log 3). -/
def Obligations.WritesPastCapacityExhaust : Prop :=
  ∀ (s : State) (i : Instr) (bits : List Bool) (esc : Bool), Inv s → s.flt = false →
    writtenBits i = some (bits, esc) → ¬ Fits s bits esc →
    ∃ t, exec i s = .next t ∧ t.flt = true ∧ t.err = true ∧ t.cause = some .resourceExhausted ∧
      t.resp = some exhaustedResponse ∧ t.params = s.params ∧ t.port = s.port

/-- R85: a finalization with cursor WC completes exactly when WC + 5 ≤ CAP_MAX, and otherwise raises RESOURCE_EXHAUSTED;
CAP_MAX is the largest INIT_CAPACITY + k·1024 within BUF_MAX_BYTES. -/
def Obligations.ExhaustionPoint : Prop :=
  ∀ (s : State) (esc : Bool), Inv s → s.flt = false →
    (∃ k, capMax s.params = s.params.initCapacity + k * 1024) ∧ capMax s.params ≤ s.params.bufMaxBytes ∧
    s.params.bufMaxBytes < capMax s.params + 1024 ∧
    (s.wc.toNat + 5 ≤ capMax s.params →
      ∃ t, finalizeByte esc s = .ok t ∧
        (t.wc.toNat = s.wc.toNat + 1 ∨ (esc = true ∧ t.wc.toNat = s.wc.toNat + 2)) ∧ t.wc.toNat + 3 ≤ capMax s.params) ∧
    (capMax s.params < s.wc.toNat + 5 → ∃ u, finalizeByte esc s = .raise .resourceExhausted u)

/-- R81, R84: Grow leaves CAP ≥ WC + 5 and changes CAP only; a finalization stores at most at WC, WC + 1 and WC + 2; no
command makes an access the spec says no command makes. -/
def Obligations.NoOverrun : Prop :=
  ∀ s : State, Inv s → s.flt = false →
    (∀ t, grow s = .ok t → t.wc.toNat + 5 ≤ t.cap ∧ t = { s with cap := t.cap }) ∧
    (∀ esc t, finalizeByte esc s = .ok t →
      ∀ a, a < s.wc.toNat ∨ s.wc.toNat + 2 < a → t.buf.read a = s.buf.read a) ∧
    (∀ i f, exec i s ≠ .fault f)

/-- R25, R83: INIT sets CAP to INIT_CAPACITY; any other command that does not exhaust the storage keeps it or adds one
increment. -/
def Obligations.CapacityOnlyGrows : Prop :=
  ∀ (s t : State) (c : Command) (rest : List HostEvent), Inv s → s.port = .command c :: rest → step s = .next t →
    (c.cmd = 0x00000001#32 → t.cap = s.params.initCapacity) ∧
    (c.cmd ≠ 0x00000001#32 → t.resp ≠ some exhaustedResponse → t.cap = s.cap ∨ t.cap = s.cap + 1024)

/-- R104: the cursor advance of a WRITE_FIXED that completes. -/
def Obligations.WriteFixedCursorAdvance : Prop :=
  ∀ (s t : State) (v w : Nat) (esc : Bool), Inv s → s.flt = false → 1 ≤ w → w ≤ 32 →
    exec (.writeFixed v w esc) s = .next t → t.resp = some okResponse →
    let f := (s.bo.toNat + w) / 8
    let e := insertions s.es (finalizes s (fieldBits v w) esc)
    (finalizes s (fieldBits v w) esc).length = f ∧ t.bo.toNat = (s.bo.toNat + w) % 8 ∧
      t.wc.toNat = s.wc.toNat + f + e ∧ e ≤ 2 ∧ (esc = false → e = 0) ∧
      8 * t.wc.toNat + t.bo.toNat = 8 * s.wc.toNat + s.bo.toNat + w + 8 * e

/-- R144: the code length, and the cursor advance of a WRITE_UE or WRITE_SE that completes; the two fields of L = 16 put
the bits one field would. -/
def Obligations.ExpGolombCursorAdvance : Prop :=
  ∀ (s t : State) (i : Instr) (m : Nat), Inv s → s.flt = false → m ≤ 131070 →
    (i = .writeUE m ∨ ∃ v : Int, i = .writeSE v ∧ (m : Int) = if 0 < v then 2 * v - 1 else -2 * v) →
    exec i s = .next t → t.resp = some okResponse →
    let len := 2 * Nat.log2 (m + 1) + 1
    let f := (s.bo.toNat + len) / 8
    let e := insertions s.es (finalizes s (ueBits m) true)
    1 ≤ len ∧ len ≤ 33 ∧ (ueBits m).length = len ∧ ueBits m = fieldBits (m + 1) len ∧ f ≤ 5 ∧
      t.bo.toNat = (s.bo.toNat + len) % 8 ∧ t.wc.toNat = s.wc.toNat + f + e ∧ e ≤ 2 ∧
      8 * t.wc.toNat + t.bo.toNat = 8 * s.wc.toNat + s.bo.toNat + len + 8 * e

/-- R105, R102: the source's chunked procedure and the bit-serial one leave the same state and response. Where both raise
RESOURCE_EXHAUSTED the rules give the response, FLT, ERR and CAUSE only: that BUF, WC, BO, ES and CAP are equal then too is
the model's choice, since R182 allows any value there and the model replaces both raised states by free values that look at
nothing but its counter (logs 3 and 4). -/
def Obligations.ChunkedEqualsBitSerial : Prop :=
  ∀ (s : State) (v w : Nat) (esc : Bool), Inv s → s.flt = false → v < 2 ^ 32 → 1 ≤ w → w ≤ 32 →
    conclude (noData (writeFixedChunked esc v w s)) = conclude (noData (writeFixedCore esc v w s))

/-- R100, R101, R106: the bit that fills a byte decides by its own write's flag whether the byte passes the escaper; a bit
that does not fill the byte finalizes nothing, whatever its flag. -/
def Obligations.CompletingBitDecidesEscape : Prop :=
  ∀ (s : State) (bit : Bool), Inv s → s.flt = false →
    (s.bo.toNat = 7 → s.wc.toNat + 5 ≤ capMax s.params →
      let b := bitsByte (pendingBits s ++ [bit])
      (∃ t, putBit false bit s = .ok t ∧ finalizedBytes t = finalizedBytes s ++ [b] ∧ t.es = s.es ∧ t.bo = 0) ∧
      (∃ t, putBit true bit s = .ok t ∧
        finalizedBytes t = finalizedBytes s ++ (if (epNext s.es b).1 then [0x03#8, b] else [b]) ∧
        t.es = (epNext s.es b).2 ∧ t.bo = 0)) ∧
    (s.bo.toNat < 7 →
      ∃ t, putBit true bit s = .ok t ∧ putBit false bit s = .ok t ∧ pendingBits t = pendingBits s ++ [bit] ∧
        finalizedBytes t = finalizedBytes s ∧ t.es = s.es ∧ t.cap = s.cap ∧ t.bo.toNat = s.bo.toNat + 1)

/-- R24, R123, R207: a command other than INIT that does not exhaust the storage changes ES only if it is an escaped write
that finalizes a byte: ES carries over unescaped writes, padding, exports and errors. -/
def Obligations.OnlyEscapedFinalizationsMoveEs : Prop :=
  ∀ (s t : State) (c : Command) (rest : List HostEvent), Inv s → s.port = .command c :: rest → step s = .next t →
    c.cmd ≠ 0x00000001#32 → t.resp ≠ some exhaustedResponse → t.es ≠ s.es →
    ∃ i bits, decode c = some i ∧ writtenBits i = some (bits, true) ∧ fullBytes (pendingBits s ++ bits) ≠ []

/-- R107: the w bits of a WRITE_FIXED, read MSB-first from where it started, give the value; with escape bytes inserted,
after deleting them, and each is a whole byte before a byte of the field. -/
def Obligations.ReadbackGivesValue : Prop :=
  ∀ (s t : State) (v w : Nat) (esc : Bool), Inv s → s.flt = false → 1 ≤ w → w ≤ 32 → v < 2 ^ w →
    exec (.writeFixed v w esc) s = .next t → t.resp = some okResponse →
    (insertions s.es (finalizes s (fieldBits v w) esc) = 0 →
      ((physicalBits t).drop (8 * s.wc.toNat + s.bo.toNat)).length = w ∧
      bitsValue ((physicalBits t).drop (8 * s.wc.toNat + s.bo.toNat)) = v) ∧
    ∃ marked : List (Byte × Bool),
      finalizedBytes t = finalizedBytes s ++ marked.map (·.1) ∧
      (marked.filter (·.2)).length = insertions s.es (finalizes s (fieldBits v w) esc) ∧
      (∀ k b, marked[k]? = some (b, true) → b = 0x03#8 ∧ ∃ b', marked[k + 1]? = some (b', false)) ∧
      let field := (((marked.filter fun x => !x.2).map (·.1)).flatMap byteBits ++ pendingBits t).drop s.bo.toNat
      field.length = w ∧ bitsValue field = v

/-- D17, R102: bits of the value above the width are not written, whatever the state. -/
def Obligations.ValueBitsAboveWidthIgnored : Prop :=
  ∀ (s : State) (v w : Nat) (esc : Bool), exec (.writeFixed v w esc) s = exec (.writeFixed (v % 2 ^ w) w esc) s

/-! ### The escaper on sequences (R120 to R126) -/

/-- R120: the state table, row by row. -/
def Obligations.EscaperTable : Prop :=
  (∀ b : Byte, b.toNat = 0 → epNext .noZeros b = (false, .oneZero)) ∧
  (∀ b : Byte, 1 ≤ b.toNat → epNext .noZeros b = (false, .noZeros)) ∧
  (∀ b : Byte, b.toNat = 0 → epNext .oneZero b = (false, .twoOrMoreZeros)) ∧
  (∀ b : Byte, 1 ≤ b.toNat → epNext .oneZero b = (false, .noZeros)) ∧
  (∀ b : Byte, b.toNat = 0 → epNext .twoOrMoreZeros b = (true, .noZeros)) ∧
  (∀ b : Byte, 1 ≤ b.toNat → b.toNat ≤ 3 → epNext .twoOrMoreZeros b = (true, .noZeros)) ∧
  (∀ b : Byte, 4 ≤ b.toNat → epNext .twoOrMoreZeros b = (false, .noZeros))

/-- R124: each finalization inserts at most one byte, of value 0x03; after one ES is NoZeros, and reaching TwoOrMoreZeros
again takes two escaped zero bytes; k escaped finalizations insert at most ceil(k/3); a WRITE_FIXED and an Exp-Golomb code at most 2; an unescaped write none. -/
def Obligations.InsertionCounts : Prop :=
  (∀ (es : EscState) (b : Byte),
    insertions es [(b, true)] ≤ 1 ∧ ((epNext es b).1 = true → (epNext es b).2 = .noZeros)) ∧
  (∀ (es : EscState) (bs : List (Byte × Bool)) (x : Byte × Bool × Bool),
    x ∈ (emitMarked es bs).1 → x.2.2 = true → x.1 = 0x03#8) ∧
  (∀ bs : List (Byte × Bool), emitEs .noZeros bs = .twoOrMoreZeros →
    2 ≤ (bs.filter fun x => x.2 && x.1 == 0x00#8).length) ∧
  (∀ (es : EscState) (bs : List Byte), insertions es (bs.map fun b => (b, true)) ≤ (bs.length + 2) / 3) ∧
  (∀ (es : EscState) (bs : List Byte), insertions es (bs.map fun b => (b, false)) = 0) ∧
  (∀ (s : State) (i : Instr) (bits : List Bool) (esc : Bool),
    writtenBits i = some (bits, esc) → insertions s.es (finalizes s bits esc) ≤ 2)

/-- R125 (a), (b): in a stream of escaped bytes from NoZeros, an inserted byte stands after two zero bytes and before a byte
of at most 3; and a triple 00 00 x with x ≤ 3 not inserted follows an inserted byte whose trigger is its first zero. -/
def Obligations.EscaperGuarantee : Prop :=
  ∀ bs : List Byte,
    let m := (emitMarked .noZeros (bs.map fun b => (b, true))).1
    (∀ j x, m[j]? = some x → x.2.2 = true →
      2 ≤ j ∧ m[j - 2]? = some (0x00#8, false, false) ∧ m[j - 1]? = some (0x00#8, false, false) ∧
        x = (0x03#8, false, true) ∧ ∃ b : Byte, b.toNat ≤ 3 ∧ m[j + 1]? = some (b, false, false)) ∧
    (∀ (j : Nat) (x : Byte), (m[j]?).map (·.1) = some 0x00#8 → (m[j + 1]?).map (·.1) = some 0x00#8 →
      m[j + 2]? = some (x, false, false) → x.toNat ≤ 3 →
      1 ≤ j ∧ m[j - 1]? = some (0x03#8, false, true))

/-- R126: the state-machine de-escaper inverts the escaper, over any mixture of escaped and unescaped bytes. -/
def Obligations.UnescapeInvertsEscape : Prop :=
  ∀ (es : EscState) (bs : List (Byte × Bool)),
    unescape es ((emitMarked es bs).1.map fun x => (x.1, x.2.1)) = bs.map (·.1)

/-- R28 (I4, I5), R50, R126: after any sequence of writes that all answer OK, the physical stream is the earlier one
followed by the escaped logical bytes, ES is the fold of EP_NEXT over them, and Unescape gives the logical bytes back. -/
def Obligations.WrittenStreamUnescapes : Prop :=
  ∀ (is : List Instr) (s t : State), Inv s → s.flt = false → (∀ i ∈ is, (writtenBits i).isSome = true) →
    runOk is s = some t →
    let logical := logicalBytes (pendingBits s) is
    finalizedBytes t = finalizedBytes s ++ emitBytes s.es logical ∧ t.es = emitEs s.es logical ∧
      unescape s.es ((((finalizedBytes t).drop s.wc.toNat).zip
        ((emitMarked s.es logical).1.map (·.2.1)))) = logical.map (·.1)

/-! ### EXPORT (R86, R49, R50, R211) -/

/-- R86, R49, R55: EXPORT of a finalized range completes with a copy of its bytes and changes nothing else. -/
def Obligations.ExportReturnsFinalizedBytes : Prop :=
  ∀ (s : State) (o l : Nat), Inv s → s.flt = false → o + l ≤ s.wc.toNat →
    exec (.exportBytes o l) s =
      .next { s with resp := some { code := .ok, data := ((finalizedBytes s).drop o).take l } }

/-- R28 (I4), R22: a command other than INIT that does not exhaust the storage changes no finalized byte and does not move
WC back. -/
def Obligations.FinalizedBytesImmutable : Prop :=
  ∀ (s t : State) (c : Command) (rest : List HostEvent), Inv s → s.port = .command c :: rest → step s = .next t →
    c.cmd ≠ 0x00000001#32 → t.resp ≠ some exhaustedResponse →
    s.wc.toNat ≤ t.wc.toNat ∧ ∀ a, a < s.wc.toNat → t.buf.read a = s.buf.read a

/-- R50, R211: bytes exported once are exported again after any commands other than INIT, as long as no fault is latched. -/
def Obligations.ExportedBytesStayValid : Prop :=
  ∀ (is : List Instr) (s t : State) (o l : Nat), Inv s → s.flt = false → o + l ≤ s.wc.toNat →
    (∀ i ∈ is, i ≠ .init) → runAll is s = some t → t.flt = false →
    ∃ s' t' data, exec (.exportBytes o l) s = .next s' ∧ exec (.exportBytes o l) t = .next t' ∧
      s'.resp = some { code := .ok, data := data } ∧ t'.resp = some { code := .ok, data := data }

/-! ### Status (R32, R33, R161, R162) -/

/-- R32, R33: the fields of STATUS, its reserved bits, the codes of ES and CAUSE, and WRITTEN_COUNT. -/
def Obligations.StatusFields : Prop :=
  ∀ s : State,
    (status s).extractLsb' 0 3 = s.bo ∧ (status s).getLsbD 3 = false ∧
    (status s).extractLsb' 4 2 = (match s.es with | .noZeros => 0#2 | .oneZero => 1#2 | .twoOrMoreZeros => 2#2) ∧
    (status s).extractLsb' 6 2 = 0#2 ∧ (status s).getLsbD 8 = s.flt ∧ (status s).getLsbD 9 = s.err ∧
    (status s).extractLsb' 10 2 = 0#2 ∧
    (status s).extractLsb' 12 4 = (match s.cause with
      | none => 0#4
      | some .illegalCommand => 1#4
      | some .widthRange => 2#4
      | some .egRange => 3#4
      | some .exportRange => 4#4
      | some .resourceExhausted => 5#4) ∧
    (status s).extractLsb' 16 16 = 0#16 ∧ writtenCount s = s.wc

/-! ### Exp-Golomb round trips and alignment (R145, R206) -/

/-- R145: decoding what a WRITE_UE or WRITE_SE wrote, after removing escape bytes by R126, gives the value back; outside the
ranges nothing is written. -/
def Obligations.ExpGolombRoundTrip : Prop :=
  ∀ s : State, Inv s → s.flt = false →
    (∀ t m, exec (.writeUE m) s = .next t → t.resp = some okResponse →
      m ≤ 131070 ∧ ueDecode (newLogicalBits s t) = some (m, [])) ∧
    (∀ t v, exec (.writeSE v) s = .next t → t.resp = some okResponse →
      -65535 ≤ v ∧ v ≤ 65535 ∧ (ueDecode (newLogicalBits s t)).map (fun p => (seUnmap p.1, p.2)) = some (v, [])) ∧
    (∀ t m, 131071 ≤ m → exec (.writeUE m) s = .next t →
      t.resp = some ⟨.error .egRange, []⟩ ∧ physicalBits t = physicalBits s) ∧
    (∀ t v, v < -65535 ∨ 65535 < v → exec (.writeSE v) s = .next t →
      t.resp = some ⟨.error .egRange, []⟩ ∧ physicalBits t = physicalBits s)

/-- R206: ALIGN's padding write, computed from STATUS.BIT_OFFSET, finalizes exactly one byte, unescaped, and leaves BO = 0
and ES unchanged; when aligned there is nothing to write. -/
def Obligations.AlignPadsToByteBoundary : Prop :=
  ∀ s : State, Inv s → s.flt = false →
    (s.bo = 0 → macroAlign (status s) = []) ∧
    (s.bo ≠ 0 →
      let i := Instr.writeFixed 0 (8 - s.bo.toNat) false
      macroAlign (status s) = [i] ∧ 1 ≤ 8 - s.bo.toNat ∧ 8 - s.bo.toNat ≤ 7 ∧
        (∀ t, exec i s = .next t → t.resp = some okResponse ∨ t.resp = some exhaustedResponse) ∧
        (s.wc.toNat + 5 ≤ capMax s.params →
          ∃ t, exec i s = .next t ∧ t.resp = some okResponse ∧ t.bo = 0 ∧ t.es = s.es ∧
            finalizedBytes t = finalizedBytes s ++ [inProgress s]))

/-! ### Invariants and isolation (R28, R47, R53) -/

/-- R28, R34: the invariant holds after reset, for every legal choice of the parameters. That BUF above index 0 holds no
value then is the model's choice (DESIGN CHOICE, log 2). -/
def Obligations.ResetMeetsInvariant : Prop := ∀ p : Config.Params, p.Legal → Inv (State.resetWith p)

/-- R28: every step keeps the invariant: I1, I2, the canonical memory, R21's indices, R25's range, and what FLT, ERR and
CAUSE say of each other. That R25's range and R21's indices hold after RESOURCE_EXHAUSTED too is log 3 (DEDUCED). -/
def Obligations.StepKeepsInvariant : Prop := ∀ s t : State, Inv s → step s = .next t → Inv t

/-- R163, R84, R47: from a state of the invariant every step answers: no fault, no refusal. -/
def Obligations.StepAlwaysAnswers : Prop := ∀ s : State, Inv s → ∃ t, step s = .next t

/-- R53: CAP and the two parameters are observable only through RESOURCE_EXHAUSTED: where neither run exhausts the storage,
everything else of the next states is equal, bytes and data included. -/
def Obligations.CapacityUnobservable : Prop :=
  ∀ (i : Instr) (s t t' : State) (cap : Nat) (p : Config.Params),
    Inv s → Inv { s with cap := cap, params := p } →
    exec i s = .next t → exec i { s with cap := cap, params := p } = .next t' →
    t.resp ≠ some exhaustedResponse → t'.resp ≠ some exhaustedResponse →
    t' = { t with cap := t'.cap, params := p }

/-- R47, U1: what the indices above the in-progress byte hold plays no part: two running writers that differ only there
give the same response and the same next state up to the new in-progress byte. Where the command answers
RESOURCE_EXHAUSTED the rules give the response, FLT, ERR and CAUSE only: that BUF, WC, BO, ES and CAP agree then too is the
model's choice, since R182 and U2 allow any value there and the model's free values look at nothing but its counter (logs 3
and 4). -/
def Obligations.UnspecifiedBytesPlayNoPart : Prop :=
  ∀ (i : Instr) (s t t' : State) (buf : Memory),
    Inv s → Inv { s with buf := buf } → s.flt = false → (∀ a, a ≤ s.wc.toNat → buf.read a = s.buf.read a) →
    exec i s = .next t → exec i { s with buf := buf } = .next t' →
    t' = { t with buf := t'.buf } ∧ ∀ a, a ≤ t.wc.toNat → t'.buf.read a = t.buf.read a
end

