-- ==== Sys2Proof/Laws/State.lean ====
section
/-! SUPPORT. One lemma for each field of State under each named update of it, so that no later proof unfolds a record
update. -/

namespace Sys2Proof.Machine

/-! ### respond -/

@[simp] theorem respond_buf (c : RespCode) (d : List Byte) (s : State) : (respond c d s).buf = s.buf := rfl
@[simp] theorem respond_wc (c : RespCode) (d : List Byte) (s : State) : (respond c d s).wc = s.wc := rfl
@[simp] theorem respond_bo (c : RespCode) (d : List Byte) (s : State) : (respond c d s).bo = s.bo := rfl
@[simp] theorem respond_es (c : RespCode) (d : List Byte) (s : State) : (respond c d s).es = s.es := rfl
@[simp] theorem respond_cap (c : RespCode) (d : List Byte) (s : State) : (respond c d s).cap = s.cap := rfl
@[simp] theorem respond_flt (c : RespCode) (d : List Byte) (s : State) : (respond c d s).flt = s.flt := rfl
@[simp] theorem respond_err (c : RespCode) (d : List Byte) (s : State) : (respond c d s).err = s.err := rfl
@[simp] theorem respond_cause (c : RespCode) (d : List Byte) (s : State) : (respond c d s).cause = s.cause := rfl
@[simp] theorem respond_params (c : RespCode) (d : List Byte) (s : State) : (respond c d s).params = s.params := rfl
@[simp] theorem respond_port (c : RespCode) (d : List Byte) (s : State) : (respond c d s).port = s.port := rfl
@[simp] theorem respond_resp (c : RespCode) (d : List Byte) (s : State) : (respond c d s).resp = some ⟨c, d⟩ := rfl
@[simp] theorem respond_free (c : RespCode) (d : List Byte) (s : State) : (respond c d s).free = s.free := rfl

/-! ### recordError -/

@[simp] theorem recordError_buf (e : ErrorCode) (s : State) : (recordError e s).buf = s.buf := rfl
@[simp] theorem recordError_wc (e : ErrorCode) (s : State) : (recordError e s).wc = s.wc := rfl
@[simp] theorem recordError_bo (e : ErrorCode) (s : State) : (recordError e s).bo = s.bo := rfl
@[simp] theorem recordError_es (e : ErrorCode) (s : State) : (recordError e s).es = s.es := rfl
@[simp] theorem recordError_cap (e : ErrorCode) (s : State) : (recordError e s).cap = s.cap := rfl
@[simp] theorem recordError_flt (e : ErrorCode) (s : State) : (recordError e s).flt = s.flt := rfl
@[simp] theorem recordError_err (e : ErrorCode) (s : State) : (recordError e s).err = true := rfl
@[simp] theorem recordError_cause (e : ErrorCode) (s : State) : (recordError e s).cause = some e := rfl
@[simp] theorem recordError_params (e : ErrorCode) (s : State) : (recordError e s).params = s.params := rfl
@[simp] theorem recordError_port (e : ErrorCode) (s : State) : (recordError e s).port = s.port := rfl
@[simp] theorem recordError_resp (e : ErrorCode) (s : State) : (recordError e s).resp = s.resp := rfl
@[simp] theorem recordError_free (e : ErrorCode) (s : State) : (recordError e s).free = s.free := rfl

/-! ### unspecifyWriter -/

@[simp] theorem unspecifyWriter_buf (s : State) : (unspecifyWriter s).buf = (Memory.ofCells (Config.exhaustedBuf s.free)).below (1 + Config.exhaustedCap s.free % s.params.bufMaxBytes) := rfl
@[simp] theorem unspecifyWriter_wc (s : State) : (unspecifyWriter s).wc = Config.exhaustedWc s.free := rfl
@[simp] theorem unspecifyWriter_bo (s : State) : (unspecifyWriter s).bo = Config.exhaustedBo s.free := rfl
@[simp] theorem unspecifyWriter_es (s : State) : (unspecifyWriter s).es = Config.exhaustedEs s.free := rfl
@[simp] theorem unspecifyWriter_cap (s : State) : (unspecifyWriter s).cap = 1 + Config.exhaustedCap s.free % s.params.bufMaxBytes := rfl
@[simp] theorem unspecifyWriter_flt (s : State) : (unspecifyWriter s).flt = s.flt := rfl
@[simp] theorem unspecifyWriter_err (s : State) : (unspecifyWriter s).err = s.err := rfl
@[simp] theorem unspecifyWriter_cause (s : State) : (unspecifyWriter s).cause = s.cause := rfl
@[simp] theorem unspecifyWriter_params (s : State) : (unspecifyWriter s).params = s.params := rfl
@[simp] theorem unspecifyWriter_port (s : State) : (unspecifyWriter s).port = s.port := rfl
@[simp] theorem unspecifyWriter_resp (s : State) : (unspecifyWriter s).resp = s.resp := rfl
@[simp] theorem unspecifyWriter_free (s : State) : (unspecifyWriter s).free = s.free + 1 := rfl

/-! ### refuseFaulted -/

@[simp] theorem refuseFaulted_buf (s : State) : (refuseFaulted s).buf = s.buf := rfl
@[simp] theorem refuseFaulted_wc (s : State) : (refuseFaulted s).wc = s.wc := rfl
@[simp] theorem refuseFaulted_bo (s : State) : (refuseFaulted s).bo = s.bo := rfl
@[simp] theorem refuseFaulted_es (s : State) : (refuseFaulted s).es = s.es := rfl
@[simp] theorem refuseFaulted_cap (s : State) : (refuseFaulted s).cap = s.cap := rfl
@[simp] theorem refuseFaulted_flt (s : State) : (refuseFaulted s).flt = s.flt := rfl
@[simp] theorem refuseFaulted_err (s : State) : (refuseFaulted s).err = s.err := rfl
@[simp] theorem refuseFaulted_cause (s : State) : (refuseFaulted s).cause = s.cause := rfl
@[simp] theorem refuseFaulted_params (s : State) : (refuseFaulted s).params = s.params := rfl
@[simp] theorem refuseFaulted_port (s : State) : (refuseFaulted s).port = s.port := rfl
@[simp] theorem refuseFaulted_resp (s : State) : (refuseFaulted s).resp = some ⟨.refusedFaulted, []⟩ := rfl
@[simp] theorem refuseFaulted_free (s : State) : (refuseFaulted s).free = s.free := rfl

/-! ### initWriter -/

@[simp] theorem initWriter_buf (s : State) : (initWriter s).buf = [(0, 0x00#8)] := rfl
@[simp] theorem initWriter_wc (s : State) : (initWriter s).wc = 0 := rfl
@[simp] theorem initWriter_bo (s : State) : (initWriter s).bo = 0 := rfl
@[simp] theorem initWriter_es (s : State) : (initWriter s).es = .noZeros := rfl
@[simp] theorem initWriter_cap (s : State) : (initWriter s).cap = s.params.initCapacity := rfl
@[simp] theorem initWriter_flt (s : State) : (initWriter s).flt = false := rfl
@[simp] theorem initWriter_err (s : State) : (initWriter s).err = false := rfl
@[simp] theorem initWriter_cause (s : State) : (initWriter s).cause = none := rfl
@[simp] theorem initWriter_params (s : State) : (initWriter s).params = s.params := rfl
@[simp] theorem initWriter_port (s : State) : (initWriter s).port = s.port := rfl
@[simp] theorem initWriter_resp (s : State) : (initWriter s).resp = s.resp := rfl
@[simp] theorem initWriter_free (s : State) : (initWriter s).free = s.free := rfl

/-! ### applyReset -/

@[simp] theorem applyReset_buf (s : State) : (applyReset s).buf = [(0, 0x00#8)] := rfl
@[simp] theorem applyReset_wc (s : State) : (applyReset s).wc = 0 := rfl
@[simp] theorem applyReset_bo (s : State) : (applyReset s).bo = 0 := rfl
@[simp] theorem applyReset_es (s : State) : (applyReset s).es = .noZeros := rfl
@[simp] theorem applyReset_cap (s : State) : (applyReset s).cap = s.params.initCapacity := rfl
@[simp] theorem applyReset_flt (s : State) : (applyReset s).flt = false := rfl
@[simp] theorem applyReset_err (s : State) : (applyReset s).err = false := rfl
@[simp] theorem applyReset_cause (s : State) : (applyReset s).cause = none := rfl
@[simp] theorem applyReset_params (s : State) : (applyReset s).params = s.params := rfl
@[simp] theorem applyReset_port (s : State) : (applyReset s).port = s.port := rfl
@[simp] theorem applyReset_resp (s : State) : (applyReset s).resp = none := rfl
@[simp] theorem applyReset_free (s : State) : (applyReset s).free = s.free := rfl

/-! ### resetAfterCommand -/

@[simp] theorem resetAfterCommand_buf (s : State) : (resetAfterCommand s).buf = [(0, 0x00#8)] := rfl
@[simp] theorem resetAfterCommand_wc (s : State) : (resetAfterCommand s).wc = 0 := rfl
@[simp] theorem resetAfterCommand_bo (s : State) : (resetAfterCommand s).bo = 0 := rfl
@[simp] theorem resetAfterCommand_es (s : State) : (resetAfterCommand s).es = .noZeros := rfl
@[simp] theorem resetAfterCommand_cap (s : State) : (resetAfterCommand s).cap = s.params.initCapacity := rfl
@[simp] theorem resetAfterCommand_flt (s : State) : (resetAfterCommand s).flt = false := rfl
@[simp] theorem resetAfterCommand_err (s : State) : (resetAfterCommand s).err = false := rfl
@[simp] theorem resetAfterCommand_cause (s : State) : (resetAfterCommand s).cause = none := rfl
@[simp] theorem resetAfterCommand_params (s : State) : (resetAfterCommand s).params = s.params := rfl
@[simp] theorem resetAfterCommand_port (s : State) : (resetAfterCommand s).port = s.port := rfl
@[simp] theorem resetAfterCommand_resp (s : State) : (resetAfterCommand s).resp = if Config.responseLetOut s.free then s.resp else none := rfl
@[simp] theorem resetAfterCommand_free (s : State) : (resetAfterCommand s).free = s.free + 1 := rfl

/-! ### bumpWc -/

@[simp] theorem bumpWc_buf (s : State) : (bumpWc s).buf = s.buf := rfl
@[simp] theorem bumpWc_wc (s : State) : (bumpWc s).wc = s.wc + 1 := rfl
@[simp] theorem bumpWc_bo (s : State) : (bumpWc s).bo = s.bo := rfl
@[simp] theorem bumpWc_es (s : State) : (bumpWc s).es = s.es := rfl
@[simp] theorem bumpWc_cap (s : State) : (bumpWc s).cap = s.cap := rfl
@[simp] theorem bumpWc_flt (s : State) : (bumpWc s).flt = s.flt := rfl
@[simp] theorem bumpWc_err (s : State) : (bumpWc s).err = s.err := rfl
@[simp] theorem bumpWc_cause (s : State) : (bumpWc s).cause = s.cause := rfl
@[simp] theorem bumpWc_params (s : State) : (bumpWc s).params = s.params := rfl
@[simp] theorem bumpWc_port (s : State) : (bumpWc s).port = s.port := rfl
@[simp] theorem bumpWc_resp (s : State) : (bumpWc s).resp = s.resp := rfl
@[simp] theorem bumpWc_free (s : State) : (bumpWc s).free = s.free := rfl

/-! ### present -/

@[simp] theorem present_buf (c : Command) (s : State) : (present c s).buf = s.buf := rfl
@[simp] theorem present_wc (c : Command) (s : State) : (present c s).wc = s.wc := rfl
@[simp] theorem present_bo (c : Command) (s : State) : (present c s).bo = s.bo := rfl
@[simp] theorem present_es (c : Command) (s : State) : (present c s).es = s.es := rfl
@[simp] theorem present_cap (c : Command) (s : State) : (present c s).cap = s.cap := rfl
@[simp] theorem present_flt (c : Command) (s : State) : (present c s).flt = s.flt := rfl
@[simp] theorem present_err (c : Command) (s : State) : (present c s).err = s.err := rfl
@[simp] theorem present_cause (c : Command) (s : State) : (present c s).cause = s.cause := rfl
@[simp] theorem present_params (c : Command) (s : State) : (present c s).params = s.params := rfl
@[simp] theorem present_port (c : Command) (s : State) : (present c s).port = .command c :: s.port.tail := rfl
@[simp] theorem present_resp (c : Command) (s : State) : (present c s).resp = s.resp := rfl
@[simp] theorem present_free (c : Command) (s : State) : (present c s).free = s.free := rfl

/-! ### errorEntry: for every error, and for the errors that keep the writer -/

@[simp] theorem errorEntry_err (e : ErrorCode) (s : State) : (errorEntry e s).err = true := by cases e <;> rfl
@[simp] theorem errorEntry_cause (e : ErrorCode) (s : State) : (errorEntry e s).cause = some e := by cases e <;> rfl
@[simp] theorem errorEntry_params (e : ErrorCode) (s : State) : (errorEntry e s).params = s.params := by cases e <;> rfl
@[simp] theorem errorEntry_port (e : ErrorCode) (s : State) : (errorEntry e s).port = s.port := by cases e <;> rfl
@[simp] theorem errorEntry_resp (e : ErrorCode) (s : State) : (errorEntry e s).resp = some ⟨.error e, []⟩ := by
  cases e <;> rfl
@[simp] theorem errorEntry_flt (e : ErrorCode) (s : State) :
    (errorEntry e s).flt = (s.flt || decide (e = .resourceExhausted)) := by
  cases e <;> simp [errorEntry]

/-- R181: an error other than RESOURCE_EXHAUSTED writes ERR, CAUSE and the response only. -/
theorem errorEntry_precise (e : ErrorCode) (s : State) (h : e ≠ .resourceExhausted) :
    errorEntry e s = { s with err := true, cause := some e, resp := some ⟨.error e, []⟩ } := by
  cases e <;> first | rfl | exact absurd rfl h

/-- R182: RESOURCE_EXHAUSTED sees of the state it was raised in only the parameters, the port and the counter. -/
theorem errorEntry_exhausted (s : State) :
    errorEntry .resourceExhausted s =
      { unspecifyWriter s with
        flt := true, err := true, cause := some .resourceExhausted, resp := some ⟨.error .resourceExhausted, []⟩ } := rfl

end Sys2Proof.Machine
end

