-- ==== Sys2Proof/Laws/Memory.lean ====
section
/-! SUPPORT. The laws of BUF as data: read after write, and that every memory operation keeps the canonical form. -/

namespace Sys2Proof.Machine

/-- The one law of a write: the index written reads the byte written, every other index reads as before. -/
theorem Memory.read_write (m : Memory) (i j : Nat) (v : Byte) :
    (m.write i v).read j = if i = j then some v else m.read j := by
  induction m with
  | nil => simp [Memory.write, Memory.read]
  | cons c m ih =>
    obtain ⟨k, b⟩ := c
    simp only [Memory.write]
    split
    · simp [Memory.read]
    · split
      · rename_i hik
        subst hik
        by_cases h : i = j <;> simp [Memory.read, h]
      · simp only [Memory.read, ih]
        by_cases hk : k = j
        · have : i ≠ j := by omega
          simp [hk, this]
        · simp [hk]

@[simp] theorem Memory.read_write_self (m : Memory) (i : Nat) (v : Byte) : (m.write i v).read i = some v := by
  simp [Memory.read_write]

theorem Memory.read_write_ne (m : Memory) {i j : Nat} (v : Byte) (h : i ≠ j) : (m.write i v).read j = m.read j := by
  simp [Memory.read_write, h]

/-- Two writes of one index leave the second. -/
theorem Memory.write_write (m : Memory) (i : Nat) (u v : Byte) : (m.write i u).write i v = m.write i v := by
  induction m with
  | nil => simp [Memory.write]
  | cons c m ih =>
    obtain ⟨k, b⟩ := c
    by_cases h1 : i < k
    · simp [Memory.write, h1]
    · by_cases h2 : i = k
      · simp [Memory.write, h2]
      · simp [Memory.write, h1, h2, ih]

/-- Where a cell of the written memory comes from. -/
theorem Memory.mem_write {m : Memory} {i : Nat} {v : Byte} {c : Host.Cell} (h : c ∈ m.write i v) :
    c = (i, v) ∨ c ∈ m := by
  induction m with
  | nil => simpa [Memory.write] using h
  | cons d m ih =>
    obtain ⟨k, b⟩ := d
    simp only [Memory.write] at h
    split at h
    · simpa using h
    · split at h
      · rcases List.mem_cons.1 h with h | h
        · exact .inl h
        · exact .inr (List.mem_cons_of_mem _ h)
      · rcases List.mem_cons.1 h with h | h
        · exact .inr (h ▸ List.mem_cons_self)
        · exact (ih h).imp_right (List.mem_cons_of_mem _)

/-- A write keeps the canonical form. -/
theorem Memory.wf_write {m : Memory} (h : m.wf) (i : Nat) (v : Byte) : (m.write i v).wf := by
  induction m with
  | nil => simp [Memory.write, Memory.wf]
  | cons c m ih =>
    obtain ⟨k, b⟩ := c
    obtain ⟨hk, hm⟩ := List.pairwise_cons.1 h
    simp only [Memory.write]
    split
    · rename_i hik
      refine List.pairwise_cons.2 ⟨fun d hd => ?_, h⟩
      rcases List.mem_cons.1 hd with rfl | hd
      · exact hik
      · exact Nat.lt_trans hik (hk d hd)
    · split
      · subst_vars; exact List.pairwise_cons.2 ⟨hk, hm⟩
      · refine List.pairwise_cons.2 ⟨fun d hd => ?_, ih hm⟩
        rcases Memory.mem_write hd with rfl | hd
        · show k < i; omega
        · exact hk d hd

/-- Any cells make a memory in canonical form. -/
theorem Memory.wf_ofCells (cells : List Host.Cell) : (Memory.ofCells cells).wf := by
  have : ∀ (cells : List Host.Cell) (m : Memory), m.wf → (cells.foldl (fun m c => Memory.write m c.1 c.2) m).wf := by
    intro cells
    induction cells with
    | nil => intro m h; exact h
    | cons c cells ih => intro m h; exact ih _ (Memory.wf_write h _ _)
  exact this cells [] List.Pairwise.nil

/-- Cutting a memory at a capacity keeps the canonical form. -/
theorem Memory.wf_below {m : Memory} (h : m.wf) (cap : Nat) : (m.below cap).wf := List.Pairwise.filter _ h

theorem Memory.lt_of_mem_below {m : Memory} {cap : Nat} {c : Host.Cell} (h : c ∈ m.below cap) : c.1 < cap := by
  simpa using (List.mem_filter.1 h).2

/-- An index that holds a value is listed. -/
theorem Memory.mem_of_read {m : Memory} {i : Nat} {b : Byte} (h : m.read i = some b) : (i, b) ∈ m := by
  induction m with
  | nil => simp [Memory.read] at h
  | cons c m ih =>
    obtain ⟨k, d⟩ := c
    simp only [Memory.read] at h
    split at h
    · simp_all
    · exact List.mem_cons_of_mem _ (ih h)

/-- In canonical form an index is listed once, so a listed cell is what its index reads. -/
theorem Memory.read_of_mem {m : Memory} (h : m.wf) {i : Nat} {b : Byte} (hm : (i, b) ∈ m) : m.read i = some b := by
  induction m with
  | nil => simp at hm
  | cons c m ih =>
    obtain ⟨k, d⟩ := c
    obtain ⟨hk, hw⟩ := List.pairwise_cons.1 h
    rcases List.mem_cons.1 hm with heq | hm
    · obtain ⟨rfl, rfl⟩ := Prod.mk.injEq .. ▸ heq
      simp [Memory.read]
    · have : k < i := hk _ hm
      simp [Memory.read, Nat.ne_of_lt this, ih hw hm]

/-- In canonical form equal memories are equal data: the reads determine the list. -/
theorem Memory.ext_read {m n : Memory} (hm : m.wf) (hn : n.wf) (h : ∀ i, m.read i = n.read i) : m = n := by
  apply List.Perm.eq_of_pairwise (le := fun x y : Host.Cell => x.1 < y.1) _ hm hn
  · rw [List.perm_ext_iff_of_nodup]
    · rintro ⟨i, b⟩
      constructor
      · intro hc; exact Memory.mem_of_read ((h i) ▸ Memory.read_of_mem hm hc)
      · intro hc; exact Memory.mem_of_read ((h i).symm ▸ Memory.read_of_mem hn hc)
    · exact hm.imp fun hxy => by rintro rfl; exact Nat.lt_irrefl _ hxy
    · exact hn.imp fun hxy => by rintro rfl; exact Nat.lt_irrefl _ hxy
  · intro a b _ _ hab hba
    exact absurd (Nat.lt_trans hab hba) (Nat.lt_irrefl _)

end Sys2Proof.Machine
end

