-- ==== Sys2Proof/Laws/Ops.lean ====
section
/-! SUPPORT. What each shared operation can do, said once: sequencing, BUF's accesses, and how a command ends. -/

namespace Sys2Proof.Machine

@[simp] theorem Res.ok_bind {α β : Type} (a : α) (k : α → Res β) : (Res.ok a).bind k = k a := rfl
@[simp] theorem Res.raise_bind {α β : Type} (e : ErrorCode) (s : State) (k : α → Res β) :
    (Res.raise e s : Res α).bind k = .raise e s := rfl
@[simp] theorem Res.fault_bind {α β : Type} (f : Fault) (k : α → Res β) : (Res.fault f : Res α).bind k = .fault f := rfl

theorem Res.bind_assoc {α β γ : Type} (r : Res α) (k : α → Res β) (l : β → Res γ) :
    (r.bind k).bind l = r.bind fun a => (k a).bind l := by cases r <;> rfl

/-- A sequence completes exactly when both parts do. -/
theorem Res.bind_eq_ok {α β : Type} {r : Res α} {k : α → Res β} {b : β} :
    r.bind k = .ok b ↔ ∃ a, r = .ok a ∧ k a = .ok b := by cases r <;> simp [Res.bind]

/-- A sequence raises exactly when its first part does, or its second after its first. -/
theorem Res.bind_eq_raise {α β : Type} {r : Res α} {k : α → Res β} {e : ErrorCode} {s : State} :
    r.bind k = .raise e s ↔ r = .raise e s ∨ ∃ a, r = .ok a ∧ k a = .raise e s := by cases r <;> simp [Res.bind]

theorem memRead_eq_ok {i : Nat} {s : State} {b : Byte} :
    memRead i s = .ok b ↔ i < s.cap ∧ s.buf.read i = some b := by
  unfold memRead
  split
  · cases h : s.buf.read i <;> simp_all
  · simp_all

@[simp] theorem memRead_ne_raise {i : Nat} {s : State} {e : ErrorCode} {t : State} : memRead i s ≠ .raise e t := by
  unfold memRead
  split
  · split <;> simp
  · simp

theorem memWrite_eq_ok {i : Nat} {v : Byte} {s t : State} :
    memWrite i v s = .ok t ↔ i < s.cap ∧ t = { s with buf := s.buf.write i v } := by
  unfold memWrite
  split <;> simp_all [eq_comm]

@[simp] theorem memWrite_ne_raise {i : Nat} {v : Byte} {s : State} {e : ErrorCode} {t : State} :
    memWrite i v s ≠ .raise e t := by
  unfold memWrite
  split <;> simp

/-- A command's outcome, once: a response OK over the procedure's state, error entry, or the procedure's fault. -/
theorem conclude_cases {r : Res (State × List Byte)} {t : State} (h : conclude r = .next t) :
    (∃ s data, r = .ok (s, data) ∧ t = respond .ok data s) ∨ (∃ e s, r = .raise e s ∧ t = errorEntry e s) := by
  rcases r with ⟨s, data⟩ | ⟨e, s⟩ | f
  · exact .inl ⟨s, data, rfl, by simpa [conclude] using h.symm⟩
  · exact .inr ⟨e, s, rfl, by simpa [conclude] using h.symm⟩
  · simp [conclude] at h

@[simp] theorem unlessFaulted_faulted (body : State → Res (State × List Byte)) {s : State} (h : s.flt = true) :
    unlessFaulted body s = .next (refuseFaulted s) := by simp [unlessFaulted, h]

@[simp] theorem unlessFaulted_running (body : State → Res (State × List Byte)) {s : State} (h : s.flt = false) :
    unlessFaulted body s = conclude (body s) := by simp [unlessFaulted, h]

/-- EXPORT's copy: it completes with the bytes at the indices, when each is inside BUF and holds a value. -/
theorem memReadRange_eq_ok {off n : Nat} {s : State}
    (h : ∀ i < n, off + i < s.cap ∧ (s.buf.read (off + i)).isSome = true) :
    memReadRange off n s = .ok ((List.range n).map fun i => (s.buf.read (off + i)).getD 0x00#8) := by
  induction n generalizing off with
  | zero => rfl
  | succ n ih =>
    obtain ⟨hc, hs⟩ := h 0 (by omega)
    obtain ⟨b, hb⟩ := Option.isSome_iff_exists.1 hs
    have h1 : memRead off s = .ok b := memRead_eq_ok.2 ⟨hc, hb⟩
    have h2 := ih (off := off + 1) fun i hi => by
      have := h (i + 1) (by omega)
      rwa [← Nat.add_assoc, Nat.add_right_comm] at this
    have hb' : s.buf.read off = some b := hb
    simp only [memReadRange, h1, h2, Res.ok_bind, List.range_succ_eq_map, List.map_cons, List.map_map]
    simp only [Nat.add_zero, hb', Option.getD_some, Res.ok.injEq, List.cons.injEq, true_and]
    apply List.map_congr_left
    intro i _
    simp [Nat.add_right_comm, Nat.add_assoc]

end Sys2Proof.Machine
end

