-- ==== Sys2Proof/Laws/Bits.lean ====
section
/-! SUPPORT. Bits, bytes and the byte-sequence escaper: the small lemmas of Safety's definitions. -/

namespace Sys2Proof.Safety

open Sys2Proof.Machine

/-! ### Bits of a byte -/

@[simp] theorem byteBits_length (b : Byte) : (byteBits b).length = 8 := by simp [byteBits]

@[simp] theorem fieldBits_length (v w : Nat) : (fieldBits v w).length = w := by simp [fieldBits]

@[simp] theorem fieldBits_zero (v : Nat) : fieldBits v 0 = [] := rfl

/-- The most significant bit of a field comes first. -/
theorem fieldBits_succ (v w : Nat) : fieldBits v (w + 1) = v.testBit w :: fieldBits v w := by
  simp only [fieldBits, List.range_succ_eq_map, List.map_cons, List.map_map]
  congr 1
  apply List.map_congr_left
  intro j hj
  have := List.mem_range.1 hj
  simp only [Function.comp_apply, Nat.succ_eq_add_one]
  congr 1
  omega

/-- Only the low w bits of the value are written (R102). -/
theorem fieldBits_mod (v w : Nat) : fieldBits (v % 2 ^ w) w = fieldBits v w := by
  apply List.map_congr_left
  intro j hj
  have := List.mem_range.1 hj
  simp [Nat.testBit_mod_two_pow]
  omega

theorem bitsValue_append (xs ys : List Bool) :
    bitsValue (xs ++ ys) = bitsValue xs * 2 ^ ys.length + bitsValue ys := by
  have key : ∀ (ys : List Bool) (n : Nat),
      ys.foldl (fun n b => 2 * n + b.toNat) n = n * 2 ^ ys.length + ys.foldl (fun n b => 2 * n + b.toNat) 0 := by
    intro ys
    induction ys with
    | nil => simp
    | cons b ys ih =>
      intro n
      rw [List.foldl_cons, List.foldl_cons, ih, ih (2 * 0 + b.toNat)]
      simp only [List.length_cons, Nat.pow_succ]
      ring
  simp only [bitsValue, List.foldl_append]
  exact key ys _

theorem bitsValue_lt (xs : List Bool) : bitsValue xs < 2 ^ xs.length := by
  induction xs using List.reverseRecOn with
  | nil => simp [bitsValue]
  | append_singleton xs b ih =>
    rw [bitsValue_append]
    have : bitsValue [b] < 2 := by cases b <;> decide
    simp only [List.length_append, List.length_singleton, Nat.pow_succ, pow_zero]
    omega

/-- A field's bits denote its low w bits. -/
theorem bitsValue_fieldBits (v w : Nat) : bitsValue (fieldBits v w) = v % 2 ^ w := by
  induction w with
  | zero => simp [bitsValue, Nat.mod_one]
  | succ w ih =>
    rw [fieldBits_succ, ← List.singleton_append, bitsValue_append, ih, fieldBits_length, Nat.mod_pow_succ]
    have : bitsValue [v.testBit w] = v / 2 ^ w % 2 := by
      rw [Nat.testBit_eq_decide_div_mod_eq]
      have : v / 2 ^ w % 2 < 2 := Nat.mod_lt _ (by norm_num)
      interval_cases h : v / 2 ^ w % 2 <;> simp [bitsValue]
    rw [this]
    ring

/-! ### Bytes as bits: finite facts over all bit lists of up to 8 bits -/

/-- All bit lists of a length. -/
def allBits : Nat → List (List Bool)
  | 0 => [[]]
  | n + 1 => (allBits n).flatMap fun bs => [false :: bs, true :: bs]

theorem mem_allBits (bs : List Bool) : bs ∈ allBits bs.length := by
  induction bs with
  | nil => simp [allBits]
  | cons b bs ih =>
    simp only [List.length_cons, allBits, List.mem_flatMap]
    exact ⟨bs, ih, by cases b <;> simp⟩

theorem forall_short (P : List Bool → Prop) (n : Nat) (h : ∀ k < n, ∀ bs ∈ allBits k, P bs) (bs : List Bool)
    (hb : bs.length < n) : P bs := h bs.length hb bs (mem_allBits bs)

/-- Placing the next bit (R100): the OR of the bit at position 7 − BO appends it. -/
theorem bitsByte_append (pend : List Bool) (b : Bool) (h : pend.length < 8) :
    bitsByte pend ||| bitInByte b (BitVec.ofNat 3 pend.length) = bitsByte (pend ++ [b]) := by
  revert b
  exact forall_short (fun pend => ∀ b, bitsByte pend ||| bitInByte b (BitVec.ofNat 3 pend.length) = bitsByte (pend ++ [b]))
    8 (by decide +kernel) pend h

theorem byteBits_bitsByte (bs : List Bool) (h : bs.length = 8) : byteBits (bitsByte bs) = bs := by
  have := forall_short (fun bs => bs.length = 8 → byteBits (bitsByte bs) = bs) 9 (by decide +kernel) bs (by omega)
  exact this h

theorem take_byteBits_bitsByte (bs : List Bool) (h : bs.length < 8) : (byteBits (bitsByte bs)).take bs.length = bs :=
  forall_short (fun bs => (byteBits (bitsByte bs)).take bs.length = bs) 8 (by decide +kernel) bs h

theorem bitsByte_clean (bs : List Bool) (h : bs.length < 8) : (bitsByte bs).toNat % 2 ^ (8 - bs.length) = 0 :=
  forall_short (fun bs => (bitsByte bs).toNat % 2 ^ (8 - bs.length) = 0) 8 (by decide +kernel) bs h

/-- A byte whose unwritten bits are 0 is its written bits (R28 I2). -/
theorem bitsByte_take_byteBits (b : Byte) (k : Nat) (hk : k < 8) (h : b.toNat % 2 ^ (8 - k) = 0) :
    bitsByte ((byteBits b).take k) = b := by
  have key : ∀ k < 8, ∀ n < 256, n % 2 ^ (8 - k) = 0 →
      bitsByte ((byteBits (BitVec.ofNat 8 n)).take k) = BitVec.ofNat 8 n := by decide +kernel
  have := key k hk b.toNat b.isLt h
  simpa using this

@[simp] theorem bitsByte_nil : bitsByte [] = 0x00#8 := by decide

/-! ### Cutting bits into bytes -/

theorem fullBytes_short (bs : List Bool) (h : bs.length < 8) : fullBytes bs = [] := by
  unfold fullBytes
  split
  · simp at h; omega
  · rfl

theorem restBits_short (bs : List Bool) (h : bs.length < 8) : restBits bs = bs := by
  unfold restBits
  split
  · simp at h; omega
  · rfl

theorem fullBytes_append (xs ys : List Bool) (h : xs.length = 8) :
    fullBytes (xs ++ ys) = bitsByte xs :: fullBytes ys := by
  match xs, h with
  | [a, b, c, d, e, f, g, i], _ => simp [fullBytes]

theorem restBits_append (xs ys : List Bool) (h : xs.length = 8) : restBits (xs ++ ys) = restBits ys := by
  match xs, h with
  | [a, b, c, d, e, f, g, i], _ => simp [restBits]

theorem restBits_length (bs : List Bool) : (restBits bs).length = bs.length % 8 := by
  induction bs using restBits.induct with
  | case1 a b c d e f g h bs ih => simp only [restBits, ih, List.length_cons]; omega
  | case2 bs h =>
    have : bs.length < 8 := by
      match bs, h with
      | [], _ | [_], _ | [_, _], _ | [_, _, _], _ | [_, _, _, _], _ | [_, _, _, _, _], _ | [_, _, _, _, _, _], _
      | [_, _, _, _, _, _, _], _ => simp
      | _ :: _ :: _ :: _ :: _ :: _ :: _ :: _ :: _, h => exact absurd rfl (h _ _ _ _ _ _ _ _ _)
    rw [restBits_short _ this, Nat.mod_eq_of_lt this]

theorem fullBytes_length (bs : List Bool) : (fullBytes bs).length = bs.length / 8 := by
  induction bs using restBits.induct with
  | case1 a b c d e f g h bs ih => simp only [fullBytes, ih, List.length_cons]; omega
  | case2 bs h =>
    have : bs.length < 8 := by
      match bs, h with
      | [], _ | [_], _ | [_, _], _ | [_, _, _], _ | [_, _, _, _], _ | [_, _, _, _, _], _ | [_, _, _, _, _, _], _
      | [_, _, _, _, _, _, _], _ => simp
      | _ :: _ :: _ :: _ :: _ :: _ :: _ :: _ :: _, h => exact absurd rfl (h _ _ _ _ _ _ _ _ _)
    rw [fullBytes_short _ this, Nat.div_eq_of_lt this]; rfl

/-- Cutting loses no bit. -/
theorem bits_of_fullBytes (bs : List Bool) : (fullBytes bs).flatMap byteBits ++ restBits bs = bs := by
  induction bs using restBits.induct with
  | case1 a b c d e f g h bs ih =>
    simp only [fullBytes, restBits, List.flatMap_cons, List.append_assoc, ih]
    rw [byteBits_bitsByte _ (by rfl)]
    rfl
  | case2 bs h =>
    have : bs.length < 8 := by
      match bs, h with
      | [], _ | [_], _ | [_, _], _ | [_, _, _], _ | [_, _, _, _], _ | [_, _, _, _, _], _ | [_, _, _, _, _, _], _
      | [_, _, _, _, _, _, _], _ => simp
      | _ :: _ :: _ :: _ :: _ :: _ :: _ :: _ :: _, h => exact absurd rfl (h _ _ _ _ _ _ _ _ _)
    rw [fullBytes_short _ this, restBits_short _ this]; rfl

/-! ### The escaper on sequences -/

@[simp] theorem emitBytes_nil (es : EscState) : emitBytes es [] = [] := rfl
@[simp] theorem emitEs_nil (es : EscState) : emitEs es [] = es := rfl
@[simp] theorem insertions_nil (es : EscState) : insertions es [] = 0 := rfl

/-- One unescaped finalization: verbatim (R123). -/
@[simp] theorem emitBytes_unescaped (es : EscState) (b : Byte) (bs : List (Byte × Bool)) :
    emitBytes es ((b, false) :: bs) = b :: emitBytes es bs := by simp [emitBytes, emitMarked]
@[simp] theorem emitEs_unescaped (es : EscState) (b : Byte) (bs : List (Byte × Bool)) :
    emitEs es ((b, false) :: bs) = emitEs es bs := by simp [emitEs, emitMarked]
@[simp] theorem insertions_unescaped (es : EscState) (b : Byte) (bs : List (Byte × Bool)) :
    insertions es ((b, false) :: bs) = insertions es bs := by simp [insertions, emitMarked]

/-- One escaped finalization: EP_NEXT decides (R121, R122). -/
theorem emitBytes_escaped (es : EscState) (b : Byte) (bs : List (Byte × Bool)) :
    emitBytes es ((b, true) :: bs) =
      (if (epNext es b).1 then [Config.escapeByte, b] else [b]) ++ emitBytes (epNext es b).2 bs := by
  simp only [emitBytes, emitMarked]
  split <;> simp
@[simp] theorem emitEs_escaped (es : EscState) (b : Byte) (bs : List (Byte × Bool)) :
    emitEs es ((b, true) :: bs) = emitEs (epNext es b).2 bs := by simp [emitEs, emitMarked]
theorem insertions_escaped (es : EscState) (b : Byte) (bs : List (Byte × Bool)) :
    insertions es ((b, true) :: bs) = (if (epNext es b).1 then 1 else 0) + insertions (epNext es b).2 bs := by
  simp only [insertions, emitMarked]
  split <;> simp [Nat.add_comm]

theorem emitBytes_cons (es : EscState) (x : Byte × Bool) (xs : List (Byte × Bool)) :
    emitBytes es (x :: xs) = emitBytes es [x] ++ emitBytes (emitEs es [x]) xs := by
  obtain ⟨b, _ | _⟩ := x
  · simp
  · simp [emitBytes_escaped]

theorem emitEs_cons (es : EscState) (x : Byte × Bool) (xs : List (Byte × Bool)) :
    emitEs es (x :: xs) = emitEs (emitEs es [x]) xs := by
  obtain ⟨b, _ | _⟩ := x <;> simp

theorem emitBytes_append (es : EscState) (xs ys : List (Byte × Bool)) :
    emitBytes es (xs ++ ys) = emitBytes es xs ++ emitBytes (emitEs es xs) ys := by
  induction xs generalizing es with
  | nil => simp
  | cons x xs ih =>
    rw [List.cons_append, emitBytes_cons, ih, emitBytes_cons es x xs, emitEs_cons es x xs, List.append_assoc]

theorem emitEs_append (es : EscState) (xs ys : List (Byte × Bool)) :
    emitEs es (xs ++ ys) = emitEs (emitEs es xs) ys := by
  induction xs generalizing es with
  | nil => simp
  | cons x xs ih => rw [List.cons_append, emitEs_cons, ih, emitEs_cons es x xs]

/-- The physical bytes are the finalized ones and the inserted ones. -/
theorem emitBytes_length (es : EscState) (xs : List (Byte × Bool)) :
    (emitBytes es xs).length = xs.length + insertions es xs := by
  induction xs generalizing es with
  | nil => simp
  | cons x xs ih =>
    obtain ⟨b, _ | _⟩ := x
    · simp [ih]; omega
    · rw [emitBytes_escaped, insertions_escaped]
      split <;> simp [ih] <;> omega

theorem emitBytes_singleton_length (es : EscState) (x : Byte × Bool) :
    1 ≤ (emitBytes es [x]).length ∧ (emitBytes es [x]).length ≤ 2 := by
  obtain ⟨b, _ | _⟩ := x
  · simp
  · rw [emitBytes_escaped]
    split <;> simp

theorem emitBytes_length_le (es : EscState) (xs : List (Byte × Bool)) : (emitBytes es xs).length ≤ 2 * xs.length := by
  induction xs generalizing es with
  | nil => simp
  | cons x xs ih =>
    rw [emitBytes_cons, List.length_append, List.length_cons]
    have := emitBytes_singleton_length es x
    have := ih (emitEs es [x])
    omega

end Sys2Proof.Safety
end

