-- ==== Sys2Proof/Laws/Packer.lean ====
section
/-! SUPPORT. What Grow, FinalizeByte, PutBit and a whole run of PutBits do to a writer that meets R28's invariants,
each said once: it completes with the state the rule gives, or raises RESOURCE_EXHAUSTED, and which of the two. -/

namespace Sys2Proof.Machine

open Sys2Proof.Safety

/-! ### A writer as a stream and pending bits -/

/-- `s` holds the finalized bytes `str` and the pending bits `pend`, in a memory of R21 within R25's capacity. -/
structure Holds (s : State) (str : List Byte) (pend : List Bool) : Prop where
  legal : s.params.Legal
  wf : s.buf.wf
  below : ∀ c ∈ s.buf, c.1 < s.cap
  capMax : s.cap ≤ s.params.bufMaxBytes
  capForm : s.params.initCapacity ≤ s.cap ∧ (s.cap - s.params.initCapacity) % 1024 = 0
  wc : s.wc.toNat = str.length
  bo : s.bo.toNat = pend.length
  room : str.length + 1 ≤ s.cap
  stream : ∀ i (h : i < str.length), s.buf.read i = some str[i]
  progress : s.buf.read str.length = some (bitsByte pend)

theorem Holds.pend_lt {s : State} {str : List Byte} {pend : List Bool} (h : Holds s str pend) : pend.length < 8 := by
  rw [← h.bo]; exact s.bo.isLt

/-- The invariants of R28 say that the writer holds its own streams. -/
theorem Holds.of_live {s : State} (hi : Inv s) (hl : Live s) : Holds s (finalizedBytes s) (pendingBits s) := by
  have hlen : (finalizedBytes s).length = s.wc.toNat := by simp [finalizedBytes]
  have hbo := s.bo.isLt
  obtain ⟨b, hb⟩ := Option.isSome_iff_exists.1 (hl.written s.wc.toNat (by omega))
  exact
    { legal := hi.legal
      wf := hi.wf
      below := hi.below
      capMax := hi.capRange.2
      capForm := hl.capForm
      wc := hlen.symm
      bo := by simp [pendingBits]; omega
      room := hlen ▸ hl.room
      stream := fun i h => by
        rw [hlen] at h
        obtain ⟨c, hc⟩ := Option.isSome_iff_exists.1 (hl.written i (by omega))
        simp [finalizedBytes, hc]
      progress := by
        rw [hlen, pendingBits, bitsByte_take_byteBits _ _ hbo hl.clean, hb, inProgress, hb]; rfl }

theorem Holds.finalizedBytes {s : State} {str : List Byte} {pend : List Bool} (h : Holds s str pend) :
    finalizedBytes s = str := by
  apply List.ext_getElem
  · simp [Safety.finalizedBytes, h.wc]
  · intro i h1 h2
    simp [Safety.finalizedBytes, h.stream i h2]

theorem Holds.inProgress {s : State} {str : List Byte} {pend : List Bool} (h : Holds s str pend) :
    inProgress s = bitsByte pend := by simp [Safety.inProgress, h.wc, h.progress]

theorem Holds.pendingBits {s : State} {str : List Byte} {pend : List Bool} (h : Holds s str pend) :
    pendingBits s = pend := by
  rw [Safety.pendingBits, h.inProgress, h.bo, take_byteBits_bitsByte _ h.pend_lt]

/-- A writer that holds streams meets R28's invariants. -/
theorem Holds.live {s : State} {str : List Byte} {pend : List Bool} (h : Holds s str pend) : Live s where
  room := h.wc ▸ h.room
  written i hi := by
    rw [h.wc] at hi
    by_cases hlt : i < str.length
    · rw [h.stream i hlt]; rfl
    · obtain rfl : i = str.length := by omega
      rw [h.progress]; rfl
  clean := by rw [h.inProgress, h.bo]; exact bitsByte_clean _ h.pend_lt
  capForm := h.capForm

/-- What a write may change: BUF above the finalized bytes up to the new cursor, WC, BO, ES and CAP. -/
structure Advances (s t : State) : Prop where
  frame : t = { s with buf := t.buf, wc := t.wc, bo := t.bo, es := t.es, cap := t.cap }
  wcLe : s.wc.toNat ≤ t.wc.toNat
  others : ∀ a, a < s.wc.toNat ∨ t.wc.toNat < a → t.buf.read a = s.buf.read a

theorem Advances.refl (s : State) : Advances s s := ⟨rfl, le_refl _, fun _ _ => rfl⟩

theorem Advances.trans {s t u : State} (h : Advances s t) (k : Advances t u) : Advances s u where
  frame := by rw [k.frame, h.frame]
  wcLe := h.wcLe.trans k.wcLe
  others a ha := by
    have h1 := h.wcLe
    have h2 := k.wcLe
    rw [k.others a (by omega), h.others a (by omega)]

theorem Advances.params {s t : State} (h : Advances s t) : t.params = s.params := by rw [h.frame]
theorem Advances.port {s t : State} (h : Advances s t) : t.port = s.port := by rw [h.frame]
theorem Advances.free {s t : State} (h : Advances s t) : t.free = s.free := by rw [h.frame]
theorem Advances.flt {s t : State} (h : Advances s t) : t.flt = s.flt := by rw [h.frame]
theorem Advances.err {s t : State} (h : Advances s t) : t.err = s.err := by rw [h.frame]
theorem Advances.cause {s t : State} (h : Advances s t) : t.cause = s.cause := by rw [h.frame]

/-! ### Grow (R80, R84, R85) -/

theorem capMax_eq_of_not_grow {p : Config.Params} {cap : Nat} (hf : p.initCapacity ≤ cap)
    (hm : (cap - p.initCapacity) % 1024 = 0) (hc : cap ≤ p.bufMaxBytes) (hg : p.bufMaxBytes < cap + 1024) :
    capMax p = cap := by unfold Safety.capMax; omega

theorem le_capMax {p : Config.Params} {cap : Nat} (hf : p.initCapacity ≤ cap)
    (hm : (cap - p.initCapacity) % 1024 = 0) (hc : cap ≤ p.bufMaxBytes) : cap ≤ capMax p := by
  unfold Safety.capMax; omega

theorem capMax_le {p : Config.Params} (h : p.Legal) : capMax p ≤ p.bufMaxBytes := by
  obtain ⟨_, h2, _⟩ := h
  unfold Safety.capMax; omega

/-- CAP after a finalization at cursor w (R80). -/
def grownCap (cap w : Nat) : Nat := if cap < w + 5 then cap + 1024 else cap

/-- Grow with its constants written out. -/
theorem grow_def (s : State) :
    grow s = if s.cap - (s.wc.toNat + 1) < 4 then
        if s.params.bufMaxBytes < s.cap + 1024 then .raise .resourceExhausted s
        else .ok { s with cap := s.cap + 1024 }
      else .ok s := rfl

/-- Grow, once: it succeeds exactly when WC + 5 ≤ CAP_MAX (R85), and then changes CAP only (R81). -/
theorem grow_eq {s : State} {w : Nat} (hw : s.wc.toNat = w) (hp : s.params.Legal) (hcap : s.cap ≤ s.params.bufMaxBytes)
    (hform : s.params.initCapacity ≤ s.cap ∧ (s.cap - s.params.initCapacity) % 1024 = 0) (hroom : w + 1 ≤ s.cap) :
    grow s = if w + 5 ≤ capMax s.params then .ok { s with cap := grownCap s.cap w }
      else .raise .resourceExhausted s := by
  obtain ⟨hf, hm⟩ := hform
  have hle := le_capMax hf hm hcap
  have hmax := capMax_le hp
  rw [grow_def, hw, grownCap]
  by_cases h1 : s.cap < w + 5
  · rw [if_pos (by omega)]
    by_cases h2 : s.params.bufMaxBytes < s.cap + 1024
    · have := capMax_eq_of_not_grow hf hm hcap h2
      rw [if_pos h2, if_neg (by omega)]
    · have : s.cap + 1024 ≤ capMax s.params :=
        le_capMax (by omega) (by omega) (by omega)
      rw [if_neg h2, if_pos (by omega), if_pos h1]
  · rw [if_neg (by omega), if_pos (by omega), if_neg h1]

/-! ### FinalizeByte (R101, R122) -/

/-- FinalizeByte, once: within CAP_MAX it appends the byte, escaped by EP_NEXT when the write escapes, and starts a
zero byte; past it, it raises before any effect. The byte may already be full, so BO is not read. -/
theorem finalizeByte_spec (esc : Bool) {s : State} {str : List Byte} {b : Byte}
    (h : Holds { s with bo := 0, buf := s.buf.write str.length 0x00#8 } str []) (hb : s.buf.read str.length = some b)
    (hwf : s.buf.wf) (hbelow : ∀ c ∈ s.buf, c.1 < s.cap) :
    (str.length + 5 ≤ capMax s.params →
      ∃ t, finalizeByte esc s = .ok t ∧ Holds t (str ++ emitBytes s.es [(b, esc)]) [] ∧ Advances s t ∧
        t.es = emitEs s.es [(b, esc)] ∧ t.cap = grownCap s.cap str.length) ∧
    (¬ str.length + 5 ≤ capMax s.params → finalizeByte esc s = .raise .resourceExhausted s) := by
  have hwc : s.wc.toNat = str.length := h.wc
  have hstr : ∀ i (hi : i < str.length), s.buf.read i = some str[i] := fun i hi => by
    have := h.stream i hi
    rwa [Memory.read_write_ne _ _ (by omega)] at this
  have hg := grow_eq hwc h.legal h.capMax h.capForm h.room
  constructor
  · intro hfit
    have hmaxp := capMax_le h.legal
    obtain ⟨hp1, hp2, hp3⟩ := h.legal
    simp only at hp1 hp2 hp3 hmaxp
    have hroom : str.length + 1 ≤ s.cap := h.room
    have hcap : str.length + 5 ≤ grownCap s.cap str.length := by unfold grownCap; split <;> omega
    have hgle : s.cap ≤ grownCap s.cap str.length := by unfold grownCap; split <;> omega
    have hcap' : grownCap s.cap str.length ≤ capMax s.params := by
      have h1 := le_capMax h.capForm.1 h.capForm.2 h.capMax
      simp only at h1
      unfold grownCap; split
      · have h2 := h.capMax
        have h3 := h.capForm
        simp only at h2 h3
        by_contra hn
        have := capMax_eq_of_not_grow h3.1 h3.2 h2 (by
          by_contra hn2
          exact hn (le_capMax (by omega) (by omega) (by omega)))
        omega
      · exact h1
    have hform : s.params.initCapacity ≤ grownCap s.cap str.length ∧
        (grownCap s.cap str.length - s.params.initCapacity) % 1024 = 0 := by
      have h3 := h.capForm
      simp only at h3
      unfold grownCap; split <;> omega
    have hw1 : (s.wc + 1).toNat = str.length + 1 := by
      rw [BitVec.toNat_add, hwc]; simp; omega
    have hw2 : (s.wc + 1 + 1).toNat = str.length + 2 := by
      rw [BitVec.toNat_add, hw1]; simp; omega
    have hread : memRead s.wc.toNat { s with cap := grownCap s.cap str.length } = .ok b :=
      memRead_eq_ok.2 ⟨by simp only [hwc]; omega, by simpa only [hwc] using hb⟩
    by_cases hins : esc = true ∧ (epNext s.es b).1 = true
    · obtain ⟨rfl, hi⟩ := hins
      have hfin : finalizeByte true s = .ok
          { s with
            buf := ((s.buf.write str.length Config.escapeByte).write (str.length + 1) b).write (str.length + 2) 0x00#8
            wc := s.wc + 1 + 1
            bo := 0
            es := (epNext s.es b).2
            cap := grownCap s.cap str.length } := by
        simp only [finalizeByte, hg, if_pos hfit, Res.ok_bind, hread, if_true, escapeFinalized, hi]
        simp only [memWrite, hwc, bumpWc, startByte]
        rw [if_pos (by omega)]
        simp only [Res.ok_bind, hwc]
        rw [if_pos (by omega)]
        simp only [Res.ok_bind, hw2]
        rw [if_pos (by omega)]
        simp only [Res.ok_bind]
      refine ⟨_, hfin, ?_, ?_, by simp, rfl⟩
      · have hem : emitBytes s.es [(b, true)] = [Config.escapeByte, b] := by simp [emitBytes_escaped, hi]
        rw [hem]
        exact
          { legal := ⟨hp1, hp2, hp3⟩
            wf := Memory.wf_write (Memory.wf_write (Memory.wf_write hwf _ _) _ _) _ _
            below := fun c hc => by
              simp only at hc ⊢
              rcases Memory.mem_write hc with rfl | hc
              · simp only; omega
              rcases Memory.mem_write hc with rfl | hc
              · simp only; omega
              rcases Memory.mem_write hc with rfl | hc
              · simp only; omega
              have := hbelow c hc; omega
            capMax := by simp only; omega
            capForm := hform
            wc := by rw [hw2]; simp
            bo := rfl
            room := by simp; omega
            stream := fun i hi' => by
              simp only [List.length_append, List.length_cons, List.length_nil] at hi'
              simp only [Memory.read_write]
              by_cases h0 : i < str.length
              · rw [if_neg (by omega), if_neg (by omega), if_neg (by omega), hstr i h0, List.getElem_append_left h0]
              · by_cases h1 : i = str.length
                · subst h1; simp
                · obtain rfl : i = str.length + 1 := by omega
                  simp
            progress := by simp }
      · refine ⟨rfl, by simp only [hw2, hwc]; omega, fun a ha => ?_⟩
        simp only [hw2, hwc] at ha
        simp only [Memory.read_write]
        rw [if_neg (by omega), if_neg (by omega), if_neg (by omega)]
    · have hes : ∃ es', emitEs s.es [(b, esc)] = es' ∧ emitBytes s.es [(b, esc)] = [b] ∧
          (if esc then escapeFinalized b { s with cap := grownCap s.cap str.length }
            else Res.ok { s with cap := grownCap s.cap str.length }) =
          .ok { s with cap := grownCap s.cap str.length, es := es' } := by
        cases esc with
        | false => exact ⟨s.es, by simp⟩
        | true =>
          have hi : (epNext s.es b).1 = false := by simpa using hins
          exact ⟨(epNext s.es b).2, by simp [emitBytes_escaped, hi, escapeFinalized]⟩
      obtain ⟨es', he1, he2, he3⟩ := hes
      have hfin : finalizeByte esc s = .ok
          { s with
            buf := s.buf.write (str.length + 1) 0x00#8
            wc := s.wc + 1
            bo := 0
            es := es'
            cap := grownCap s.cap str.length } := by
        simp only [finalizeByte, hg, if_pos hfit, Res.ok_bind, hread, he3]
        simp only [memWrite, hw1, bumpWc, startByte]
        rw [if_pos (by omega)]
        simp only [Res.ok_bind]
      refine ⟨_, hfin, ?_, ?_, he1.symm, rfl⟩
      · rw [he2]
        exact
          { legal := ⟨hp1, hp2, hp3⟩
            wf := Memory.wf_write hwf _ _
            below := fun c hc => by
              simp only at hc ⊢
              rcases Memory.mem_write hc with rfl | hc
              · simp only; omega
              have := hbelow c hc; omega
            capMax := by simp only; omega
            capForm := hform
            wc := by rw [hw1]; simp
            bo := rfl
            room := by simp; omega
            stream := fun i hi' => by
              simp only [List.length_append, List.length_cons, List.length_nil] at hi'
              simp only [Memory.read_write]
              by_cases h0 : i < str.length
              · rw [if_neg (by omega), hstr i h0, List.getElem_append_left h0]
              · obtain rfl : i = str.length := by omega
                simp [hb]
            progress := by simp }
      · refine ⟨rfl, by simp only [hw1, hwc]; omega, fun a ha => ?_⟩
        simp only [hw1, hwc] at ha
        simp only [Memory.read_write]
        rw [if_neg (by omega)]
  · intro hfit
    simp only [finalizeByte, hg, if_neg hfit, Res.raise_bind]

/-! ### PutBit (R100) -/

/-- PutBit with room in the byte: the bit is appended, and no byte is finalized. -/
theorem putBit_within (esc bit : Bool) {s : State} {str : List Byte} {pend : List Bool} (h : Holds s str pend)
    (hp : pend.length < 7) :
    ∃ t, putBit esc bit s = .ok t ∧ Holds t str (pend ++ [bit]) ∧ Advances s t ∧ t.es = s.es ∧ t.cap = s.cap := by
  have hbo : s.bo = BitVec.ofNat 3 pend.length := by
    rw [← h.bo]; simp
  have hwc := h.wc
  have hroom := h.room
  have hput : putBit esc bit s = .ok
      { s with buf := s.buf.write str.length (bitsByte (pend ++ [bit])), bo := s.bo + 1 } := by
    have hr : memRead str.length s = .ok (bitsByte pend) := memRead_eq_ok.2 ⟨by omega, h.progress⟩
    simp only [putBit, hwc, hr, Res.ok_bind, memWrite]
    rw [if_pos (by omega), Res.ok_bind, hbo, bitsByte_append _ _ h.pend_lt, ← hbo]
    rw [if_neg (by simp only [h.bo]; omega)]
  refine ⟨_, hput, ?_, ?_, rfl, rfl⟩
  · exact
      { legal := h.legal
        wf := Memory.wf_write h.wf _ _
        below := fun c hc => by
          rcases Memory.mem_write hc with rfl | hc
          · simp only; omega
          exact h.below c hc
        capMax := h.capMax
        capForm := h.capForm
        wc := hwc
        bo := by simp only [BitVec.toNat_add, h.bo, List.length_append, List.length_singleton]; simp; omega
        room := h.room
        stream := fun i hi => by
          simp only [Memory.read_write]
          rw [if_neg (by omega), h.stream i hi]
        progress := by simp }
  · refine ⟨rfl, le_refl _, fun a ha => ?_⟩
    simp only at ha
    exact Memory.read_write_ne _ _ (by omega)

/-- PutBit of the eighth bit: the byte is finalized by this write's flag (R106), or RESOURCE_EXHAUSTED is raised. -/
theorem putBit_completes (esc bit : Bool) {s : State} {str : List Byte} {pend : List Bool} (h : Holds s str pend)
    (hp : pend.length = 7) :
    (str.length + 5 ≤ capMax s.params →
      ∃ t, putBit esc bit s = .ok t ∧ Holds t (str ++ emitBytes s.es [(bitsByte (pend ++ [bit]), esc)]) [] ∧
        Advances s t ∧ t.es = emitEs s.es [(bitsByte (pend ++ [bit]), esc)] ∧ t.cap = grownCap s.cap str.length) ∧
    (¬ str.length + 5 ≤ capMax s.params →
      ∃ t, putBit esc bit s = .raise .resourceExhausted t ∧ Advances s t) := by
  have hbo : s.bo = BitVec.ofNat 3 pend.length := by
    rw [← h.bo]; simp
  have hwc := h.wc
  have hroom := h.room
  let s' : State := { s with buf := s.buf.write str.length (bitsByte (pend ++ [bit])) }
  have hput : putBit esc bit s = finalizeByte esc s' := by
    have hr : memRead str.length s = .ok (bitsByte pend) := memRead_eq_ok.2 ⟨by omega, h.progress⟩
    simp only [putBit, hwc, hr, Res.ok_bind, memWrite]
    rw [if_pos (by omega), Res.ok_bind, hbo, bitsByte_append _ _ h.pend_lt, ← hbo]
    rw [if_pos (by simp only [h.bo]; omega)]
  have hbelow : ∀ c ∈ s'.buf, c.1 < s'.cap := fun c hc => by
    rcases Memory.mem_write hc with rfl | hc
    · show str.length < s.cap; omega
    exact h.below c hc
  have hadv : Advances s s' := by
    refine ⟨rfl, le_refl _, fun a ha => ?_⟩
    simp only [s', hwc] at ha
    exact Memory.read_write_ne _ _ (by omega)
  have hH : Holds { s' with bo := 0, buf := s'.buf.write str.length 0x00#8 } str [] :=
    { legal := h.legal
      wf := Memory.wf_write (Memory.wf_write h.wf _ _) _ _
      below := fun c hc => by
        rcases Memory.mem_write hc with rfl | hc
        · show str.length < s.cap; omega
        exact hbelow c hc
      capMax := h.capMax
      capForm := h.capForm
      wc := hwc
      bo := rfl
      room := h.room
      stream := fun i hi => by
        simp only [s', Memory.read_write]
        rw [if_neg (by omega), if_neg (by omega), h.stream i hi]
      progress := by simp }
  obtain ⟨hok, hraise⟩ := finalizeByte_spec esc hH (b := bitsByte (pend ++ [bit])) (by simp [s'])
    (Memory.wf_write h.wf _ _) hbelow
  rw [hput]
  refine ⟨fun hfit => ?_, fun hfit => ⟨s', hraise hfit, hadv⟩⟩
  obtain ⟨t, h1, h2, h3, h4, h5⟩ := hok hfit
  exact ⟨t, h1, h2, hadv.trans h3, h4, h5⟩

/-! ### A run of PutBits (R102) -/

/-- PutBit over a list of bits. -/
def putBitList (esc : Bool) : List Bool → State → Res State
  | [], s => .ok s
  | b :: bs, s => (putBit esc b s).bind (putBitList esc bs)

theorem putBitList_append (esc : Bool) (xs ys : List Bool) (s : State) :
    putBitList esc (xs ++ ys) s = (putBitList esc xs s).bind (putBitList esc ys) := by
  induction xs generalizing s with
  | nil => rfl
  | cons b xs ih =>
    simp only [List.cons_append, putBitList, Res.bind_assoc]
    congr 1
    funext t
    exact ih t

theorem putBits_eq_putBitList (esc : Bool) (n w : Nat) (s : State) :
    putBits esc n w s = putBitList esc (fieldBits n w) s := by
  induction w generalizing s with
  | zero => rfl
  | succ w ih =>
    rw [fieldBits_succ]
    simp only [putBits, putBitList]
    congr 1
    funext t
    exact ih t

/-- WriteFixedCore writes the field's bits, most significant first (R102). -/
theorem writeFixedCore_eq (esc : Bool) (v w : Nat) (s : State) :
    writeFixedCore esc v w s = putBitList esc (fieldBits v w) s := by
  rw [writeFixedCore, putBits_eq_putBitList, lowBits, fieldBits_mod]

/-- Every finalization of the sequence is within CAP_MAX, the first at cursor w (R85). -/
def FitsFrom (max : Nat) : Nat → EscState → List (Byte × Bool) → Prop
  | _, _, [] => True
  | w, es, x :: xs => w + 5 ≤ max ∧ FitsFrom max (w + (emitBytes es [x]).length) (emitEs es [x]) xs

/-- CAP after the sequence's finalizations, the first at cursor w (R80). -/
def capFrom : Nat → Nat → EscState → List (Byte × Bool) → Nat
  | cap, _, _, [] => cap
  | cap, w, es, x :: xs => capFrom (grownCap cap w) (w + (emitBytes es [x]).length) (emitEs es [x]) xs

/-- A run of PutBits, once: it completes exactly when every finalization fits, with the state it gives. -/
theorem putBitList_spec (esc : Bool) (bits : List Bool) {s : State} {str : List Byte} {pend : List Bool}
    (h : Holds s str pend) :
    let fs := (fullBytes (pend ++ bits)).map fun b => (b, esc)
    (FitsFrom (capMax s.params) str.length s.es fs →
      ∃ t, putBitList esc bits s = .ok t ∧ Holds t (str ++ emitBytes s.es fs) (restBits (pend ++ bits)) ∧
        Advances s t ∧ t.es = emitEs s.es fs ∧ t.cap = capFrom s.cap str.length s.es fs) ∧
    (¬ FitsFrom (capMax s.params) str.length s.es fs →
      ∃ t, putBitList esc bits s = .raise .resourceExhausted t ∧ Advances s t) := by
  induction bits generalizing s str pend with
  | nil =>
    simp only [List.append_nil, fullBytes_short _ h.pend_lt, restBits_short _ h.pend_lt, List.map_nil, FitsFrom,
      emitBytes_nil, emitEs_nil, capFrom, not_true_eq_false, false_implies, and_true, true_implies]
    exact ⟨s, rfl, h, Advances.refl s, rfl, rfl⟩
  | cons b bits ih =>
    have hlt := h.pend_lt
    rw [List.append_cons]
    by_cases hp : pend.length < 7
    · obtain ⟨t, h1, h2, h3, h4, h5⟩ := putBit_within esc b h hp
      obtain ⟨hok, hraise⟩ := ih h2
      simp only [h4, h5, h3.params] at hok hraise
      simp only [putBitList, h1, Res.ok_bind]
      refine ⟨fun hf => ?_, fun hf => ?_⟩
      · obtain ⟨u, u1, u2, u3, u4, u5⟩ := hok hf
        exact ⟨u, u1, u2, h3.trans u3, u4, u5⟩
      · obtain ⟨u, u1, u2⟩ := hraise hf
        exact ⟨u, u1, h3.trans u2⟩
    · have hp7 : pend.length = 7 := by omega
      have h8 : (pend ++ [b]).length = 8 := by simp [hp7]
      obtain ⟨pok, praise⟩ := putBit_completes esc b h hp7
      rw [fullBytes_append _ _ h8, restBits_append _ _ h8, List.map_cons]
      simp only [FitsFrom, capFrom]
      refine ⟨fun ⟨hf1, hf2⟩ => ?_, fun hf => ?_⟩
      · obtain ⟨t, h1, h2, h3, h4, h5⟩ := pok hf1
        obtain ⟨hok, -⟩ := ih h2
        simp only [List.nil_append, h4, h5, h3.params, List.length_append] at hok
        obtain ⟨u, u1, u2, u3, u4, u5⟩ := hok hf2
        refine ⟨u, by simp only [putBitList, h1, Res.ok_bind, u1], ?_, h3.trans u3, ?_, u5⟩
        · rwa [List.append_assoc, ← emitBytes_cons] at u2
        · rw [u4, ← emitEs_cons]
      · by_cases hf1 : str.length + 5 ≤ capMax s.params
        · obtain ⟨t, h1, h2, h3, h4, h5⟩ := pok hf1
          obtain ⟨-, hraise⟩ := ih h2
          simp only [List.nil_append, h4, h3.params, List.length_append] at hraise
          obtain ⟨u, u1, u2⟩ := hraise fun hf2 => hf ⟨hf1, hf2⟩
          exact ⟨u, by simp only [putBitList, h1, Res.ok_bind, u1], h3.trans u2⟩
        · obtain ⟨t, h1, h2⟩ := praise hf1
          exact ⟨t, by simp only [putBitList, h1, Res.raise_bind], h2⟩

/-! ### The closed forms of the exhaustion point and of CAP -/

/-- The last finalization decides (R85: the cursor only advances). -/
theorem fitsFrom_iff (max w : Nat) (es : EscState) (xs : List (Byte × Bool)) :
    FitsFrom max w es xs ↔ xs = [] ∨ w + (emitBytes es xs.dropLast).length + 5 ≤ max := by
  induction xs generalizing w es with
  | nil => simp [FitsFrom]
  | cons x xs ih =>
    simp only [FitsFrom, ih, reduceCtorEq, false_or]
    cases xs with
    | nil => simp
    | cons y ys =>
      rw [List.dropLast_cons_cons, emitBytes_cons es x (y :: ys).dropLast, List.length_append]
      have := (emitBytes_singleton_length es x).1
      simp only [reduceCtorEq, false_or]
      constructor
      · rintro ⟨-, h⟩; omega
      · intro h; constructor <;> omega

/-- One command grows CAP at most once: its finalizations span less than one increment. -/
theorem capFrom_eq (cap w : Nat) (es : EscState) (xs : List (Byte × Bool)) (hw : w + 1 ≤ cap)
    (hlen : xs.length ≤ 500) :
    capFrom cap w es xs =
      if xs ≠ [] ∧ cap < w + (emitBytes es xs.dropLast).length + 5 then cap + 1024 else cap := by
  have key : ∀ (xs : List (Byte × Bool)) (cap w : Nat) (es : EscState),
      w + 2 * xs.length + 5 ≤ cap → capFrom cap w es xs = cap := by
    intro xs
    induction xs with
    | nil => intros; rfl
    | cons x xs ih =>
      intro cap w es h
      simp only [List.length_cons] at h
      have := emitBytes_singleton_length es x
      have hg : grownCap cap w = cap := if_neg (by omega)
      rw [capFrom, hg, ih _ _ _ (by omega)]
  induction xs generalizing cap w es with
  | nil => simp [capFrom]
  | cons x xs ih =>
    simp only [List.length_cons] at hlen
    have hx := emitBytes_singleton_length es x
    rw [capFrom]
    by_cases hc : cap < w + 5
    · have hg : grownCap cap w = cap + 1024 := if_pos hc
      rw [hg, key _ _ _ _ (by omega), if_pos ⟨by simp, by omega⟩]
    · have hg : grownCap cap w = cap := if_neg hc
      rw [hg, ih _ _ _ (by omega) (by omega)]
      cases xs with
      | nil => simp; omega
      | cons y ys =>
        rw [List.dropLast_cons_cons, emitBytes_cons es x (y :: ys).dropLast, List.length_append]
        simp only [ne_eq, reduceCtorEq, not_false_eq_true, true_and]
        have e : w + (emitBytes es [x]).length + (emitBytes (emitEs es [x]) (y :: ys).dropLast).length + 5 =
            w + ((emitBytes es [x]).length + (emitBytes (emitEs es [x]) (y :: ys).dropLast).length) + 5 := by omega
        rw [e]

end Sys2Proof.Machine
end

