-- ==== Sys2Proof/Laws/Commands.lean ====
section
/-! SUPPORT. The write commands as runs of bits: which bits each puts (R102, R140, R142), and which operands each rejects
before any effect (R103, R140). -/

namespace Sys2Proof.Machine

open Sys2Proof.Safety

/-- A field's upper bits come before its lower ones (R42). -/
theorem fieldBits_add (v a b : Nat) : fieldBits v (a + b) = fieldBits (v / 2 ^ b) a ++ fieldBits v b := by
  induction a with
  | zero => simp
  | succ a ih =>
    rw [Nat.add_right_comm, fieldBits_succ, ih, fieldBits_succ, List.cons_append]
    congr 1
    rw [Nat.testBit_div_two_pow]

theorem fieldBits_zero_value (w : Nat) : fieldBits 0 w = List.replicate w false := by
  simp [fieldBits, List.map_const']

/-- L ≤ k exactly when the code number is below 2^(k+1) − 1. -/
theorem egLeadingZeros_le_iff (m k : Nat) : egLeadingZeros m ≤ k ↔ m + 1 < 2 ^ (k + 1) := by
  rw [egLeadingZeros, floorLog2, ← Nat.log2_lt (by omega)]
  omega

/-- The separator and suffix of a code: m + 1 in L + 1 bits is a 1 and the suffix (R140). -/
theorem fieldBits_codeword (m : Nat) :
    fieldBits (m + 1) (Nat.log2 (m + 1) + 1) =
      true :: fieldBits (m + 1 - 2 ^ Nat.log2 (m + 1)) (Nat.log2 (m + 1)) := by
  have hle : 2 ^ Nat.log2 (m + 1) ≤ m + 1 := Nat.log2_self_le (by omega)
  have hlt : m + 1 < 2 ^ (Nat.log2 (m + 1) + 1) := Nat.lt_log2_self
  generalize Nat.log2 (m + 1) = l at *
  rw [fieldBits_succ]
  have hdiv : (m + 1) / 2 ^ l = 1 := by
    rw [Nat.pow_succ] at hlt
    exact Nat.div_eq_of_lt_le (by omega) (by omega)
  have htest : (m + 1).testBit l = true := by
    rw [Nat.testBit_eq_decide_div_mod_eq, hdiv]; rfl
  have hmod : (m + 1) % 2 ^ l = m + 1 - 2 ^ l := by
    have := Nat.div_add_mod (m + 1) (2 ^ l)
    rw [hdiv] at this
    omega
  rw [htest, ← fieldBits_mod, hmod]

/-- One field of 2L + 1 bits is the code (R140, R144). -/
theorem fieldBits_ueBits (m : Nat) : fieldBits (m + 1) (2 * Nat.log2 (m + 1) + 1) = ueBits m := by
  have hlt : m + 1 < 2 ^ (Nat.log2 (m + 1) + 1) := Nat.lt_log2_self
  have : 2 * Nat.log2 (m + 1) + 1 = Nat.log2 (m + 1) + (Nat.log2 (m + 1) + 1) := by omega
  rw [this, fieldBits_add, Nat.div_eq_of_lt hlt, fieldBits_zero_value, fieldBits_codeword, ueBits]

@[simp] theorem ueBits_length (m : Nat) : (ueBits m).length = 2 * Nat.log2 (m + 1) + 1 := by
  rw [← fieldBits_ueBits, fieldBits_length]

/-- UECode puts the code's bits, in one field or two (R140). -/
theorem ueCode_eq {m : Nat} (h : m ≤ 131070) (s : State) : ueCode m s = putBitList true (ueBits m) s := by
  have hl : egLeadingZeros m ≤ 16 := (egLeadingZeros_le_iff m 16).2 (by norm_num; omega)
  simp only [ueCode, Config.egMaxL, Config.egSplitL]
  rw [if_neg (by omega)]
  split
  · rw [writeFixedCore_eq, egLeadingZeros, floorLog2, fieldBits_ueBits]
  · have : egLeadingZeros m = Nat.log2 (m + 1) := rfl
    rw [writeFixedCore_eq, this, fieldBits_zero_value]
    have hw : (fun s => writeFixedCore true (m + 1) (Nat.log2 (m + 1) + 1) s) =
        putBitList true (fieldBits (m + 1) (Nat.log2 (m + 1) + 1)) := by
      funext s; exact writeFixedCore_eq _ _ _ _
    rw [hw, ← putBitList_append, fieldBits_codeword, ueBits]

/-- UECode rejects the code numbers past the range before any effect (R140, R146). -/
theorem ueCode_rejects {m : Nat} (h : 131071 ≤ m) (s : State) : ueCode m s = .raise .egRange s := by
  have hl : ¬ egLeadingZeros m ≤ 16 := fun h' => by
    have := (egLeadingZeros_le_iff m 16).1 h'
    norm_num at this
    omega
  simp only [ueCode, Config.egMaxL]
  rw [if_pos (by omega)]

/-- SE_MAP's range (R143). -/
theorem seMap_le_iff (v : Int) : seMap v ≤ 131070 ↔ -65535 ≤ v ∧ v ≤ 65535 := by
  unfold seMap
  split <;> omega

/-- A write command with operands it accepts is a run of PutBits over its bits. -/
theorem exec_write {i : Instr} {bits : List Bool} {esc : Bool} (h : writtenBits i = some (bits, esc)) (s : State) :
    exec i s = unlessFaulted (fun s => noData (putBitList esc bits s)) s := by
  cases i with
  | init => simp [writtenBits] at h
  | exportBytes o l => simp [writtenBits] at h
  | writeFixed v w e =>
    simp only [writtenBits] at h
    split at h
    · rename_i hw
      simp only [Option.some.injEq, Prod.mk.injEq] at h
      obtain ⟨rfl, rfl⟩ := h
      simp only [exec, execWriteFixed]
      congr 1
      funext t
      simp only [writeFixedBody, Config.minWidth, Config.maxWidth]
      rw [if_neg (by omega), writeFixedCore_eq]
    · simp at h
  | writeUE m =>
    simp only [writtenBits] at h
    split at h
    · rename_i hm
      simp only [Option.some.injEq, Prod.mk.injEq] at h
      obtain ⟨rfl, rfl⟩ := h
      simp only [exec, execWriteUE]
      congr 1
      funext t
      rw [ueCode_eq hm]
    · simp at h
  | writeSE v =>
    simp only [writtenBits] at h
    split at h
    · rename_i hv
      simp only [Option.some.injEq, Prod.mk.injEq] at h
      obtain ⟨rfl, rfl⟩ := h
      simp only [exec, execWriteSE]
      congr 1
      funext t
      rw [ueCode_eq ((seMap_le_iff v).2 hv)]
      rfl
    · simp at h

/-- The commands put at most 33 bits (R45, R144). -/
theorem writtenBits_length_le {i : Instr} {bits : List Bool} {esc : Bool} (h : writtenBits i = some (bits, esc)) :
    bits.length ≤ 33 := by
  have hue : ∀ m, m ≤ 131070 → (ueBits m).length ≤ 33 := fun m hm => by
    have : egLeadingZeros m ≤ 16 := (egLeadingZeros_le_iff m 16).2 (by norm_num; omega)
    have h2 : egLeadingZeros m = Nat.log2 (m + 1) := rfl
    rw [ueBits_length]
    omega
  cases i with
  | init => simp [writtenBits] at h
  | exportBytes o l => simp [writtenBits] at h
  | writeFixed v w e =>
    simp only [writtenBits] at h
    split at h
    · simp only [Option.some.injEq, Prod.mk.injEq] at h
      rw [← h.1, fieldBits_length]; omega
    · simp at h
  | writeUE m =>
    simp only [writtenBits] at h
    split at h
    · rename_i hm
      simp only [Option.some.injEq, Prod.mk.injEq] at h
      exact h.1 ▸ hue m hm
    · simp at h
  | writeSE v =>
    simp only [writtenBits] at h
    split at h
    · rename_i hv
      simp only [Option.some.injEq, Prod.mk.injEq] at h
      exact h.1 ▸ hue _ ((seMap_le_iff v).2 hv)
    · simp at h

end Sys2Proof.Machine
end

