-- ==== Sys2Proof/Laws/Exec.lean ====
section
/-! SUPPORT. Everything a command can do to a state of the invariant, said once: `exec_answers`. Later proofs take its
cases instead of unfolding `exec`. -/

namespace Sys2Proof.Machine

open Sys2Proof.Safety

/-- The error with which a command rejects its operands before any effect (R86, R103, R140). -/
def rejects (s : State) : Instr → Option ErrorCode
  | .init => none
  | .writeFixed _ w _ => if w < 1 ∨ 32 < w then some .widthRange else none
  | .writeUE m => if 131071 ≤ m then some .egRange else none
  | .writeSE v => if v < -65535 ∨ 65535 < v then some .egRange else none
  | .exportBytes o l => if s.wc.toNat < o + l then some .exportRange else none

/-- How a command other than EXPORT, INIT is sorted: rejected, or a write of bits. -/
theorem writtenBits_of_not_rejects {s : State} {i : Instr} (h : rejects s i = none) (hi : i ≠ .init)
    (he : ∀ o l, i ≠ .exportBytes o l) : ∃ bits esc, writtenBits i = some (bits, esc) := by
  cases i with
  | init => exact absurd rfl hi
  | exportBytes o l => exact absurd rfl (he o l)
  | writeFixed v w e =>
    simp only [rejects] at h
    split at h
    · simp at h
    · exact ⟨_, _, if_pos (by omega)⟩
  | writeUE m =>
    simp only [rejects] at h
    split at h
    · simp at h
    · exact ⟨_, _, if_pos (by omega)⟩
  | writeSE v =>
    simp only [rejects] at h
    split at h
    · simp at h
    · exact ⟨_, _, if_pos (by omega)⟩

theorem not_rejects_of_writtenBits {s : State} {i : Instr} {bits : List Bool} {esc : Bool}
    (h : writtenBits i = some (bits, esc)) : rejects s i = none := by
  cases i with
  | init => rfl
  | exportBytes o l => simp [writtenBits] at h
  | writeFixed v w e =>
    simp only [writtenBits] at h
    split at h
    · exact if_neg (by omega)
    · simp at h
  | writeUE m =>
    simp only [writtenBits] at h
    split at h
    · exact if_neg (by omega)
    · simp at h
  | writeSE v =>
    simp only [writtenBits] at h
    split at h
    · exact if_neg (by omega)
    · simp at h

/-- A rejected command writes ERR, CAUSE and the response only (R181); no invariant is needed. -/
theorem exec_rejects {s : State} {i : Instr} {e : ErrorCode} (hf : s.flt = false) (h : rejects s i = some e) :
    exec i s = .next (errorEntry e s) ∧ e ≠ .resourceExhausted := by
  cases i with
  | init => simp [rejects] at h
  | writeFixed v w esc =>
    simp only [rejects] at h
    split at h
    · rename_i hw
      cases h
      simp only [exec, execWriteFixed, unlessFaulted_running _ hf, writeFixedBody]
      rw [if_pos hw]
      simp [conclude]
    · simp at h
  | writeUE m =>
    simp only [rejects] at h
    split at h
    · rename_i hm
      cases h
      simp [exec, execWriteUE, unlessFaulted_running _ hf, ueCode_rejects hm, noData, conclude]
    · simp at h
  | writeSE v =>
    simp only [rejects] at h
    split at h
    · rename_i hv
      cases h
      have : ¬ seMap v ≤ 131070 := fun h' => by have := (seMap_le_iff v).1 h'; omega
      simp [exec, execWriteSE, unlessFaulted_running _ hf, ueCode_rejects (show 131071 ≤ seMap v by omega), noData,
        conclude]
    · simp at h
  | exportBytes o l =>
    simp only [rejects] at h
    split at h
    · rename_i hr
      cases h
      simp [exec, execExport, unlessFaulted_running _ hf, exportBody, if_pos hr, conclude]
    · simp at h

/-- While FLT = 1 every command but INIT is refused (R185); no invariant is needed. -/
theorem exec_faulted {s : State} {i : Instr} (hf : s.flt = true) (hi : i ≠ .init) :
    exec i s = .next (refuseFaulted s) := by
  cases i <;> simp_all [exec, execWriteFixed, execWriteUE, execWriteSE, execExport]

/-- What a command answers from a state of the invariant. -/
inductive Answer (s : State) (i : Instr) : State → Prop where
  /-- INIT (R160). -/
  | init : i = .init → Answer s i (respond .ok [] (initWriter s))
  /-- R185. -/
  | refused : i ≠ .init → s.flt = true → Answer s i (refuseFaulted s)
  /-- R181. -/
  | rejected (e : ErrorCode) : s.flt = false → rejects s i = some e → e ≠ .resourceExhausted →
      Answer s i (errorEntry e s)
  /-- A write that completes. -/
  | wrote (bits : List Bool) (esc : Bool) (t : State) : s.flt = false → writtenBits i = some (bits, esc) →
      Fits s bits esc → WriteEffect s t bits esc →
      Holds t (finalizedBytes s ++ emitBytes s.es (finalizes s bits esc)) (restBits (pendingBits s ++ bits)) →
      Answer s i t
  /-- R182: the raised state `u` is not what the answer keeps. -/
  | exhausted (bits : List Bool) (esc : Bool) (u : State) : s.flt = false → writtenBits i = some (bits, esc) →
      ¬ Fits s bits esc → Advances s u → Answer s i (errorEntry .resourceExhausted u)
  /-- R86. -/
  | exported (o l : Nat) : s.flt = false → i = .exportBytes o l → o + l ≤ s.wc.toNat →
      Answer s i (respond .ok (((finalizedBytes s).drop o).take l) s)

theorem finalizedBytes_length (s : State) : (finalizedBytes s).length = s.wc.toNat := by simp [finalizedBytes]

theorem fits_iff_fitsFrom (s : State) (bits : List Bool) (esc : Bool) :
    Fits s bits esc ↔ FitsFrom (capMax s.params) s.wc.toNat s.es (finalizes s bits esc) := by
  rw [fitsFrom_iff]; rfl

theorem Holds.respond {s : State} {str : List Byte} {pend : List Bool} (h : Holds s str pend) (c : RespCode)
    (d : List Byte) : Holds (respond c d s) str pend :=
  ⟨h.legal, h.wf, h.below, h.capMax, h.capForm, h.wc, h.bo, h.room, h.stream, h.progress⟩

/-- Every command answers, in one of the six ways. -/
theorem exec_answers {s : State} (hi : Inv s) (i : Instr) : ∃ t, exec i s = .next t ∧ Answer s i t := by
  by_cases hinit : i = .init
  · subst hinit; exact ⟨_, rfl, .init rfl⟩
  by_cases hf : s.flt = true
  · exact ⟨_, exec_faulted hf hinit, .refused hinit hf⟩
  replace hf : s.flt = false := by simpa using hf
  have hl := hi.live hf
  cases hr : rejects s i with
  | some e =>
    obtain ⟨h1, h2⟩ := exec_rejects hf hr
    exact ⟨_, h1, .rejected e hf hr h2⟩
  | none =>
    by_cases hexp : ∃ o l, i = .exportBytes o l
    · obtain ⟨o, l, rfl⟩ := hexp
      have hle : ¬ s.wc.toNat < o + l := fun h => by simp [rejects, h] at hr
      refine ⟨_, ?_, .exported o l hf rfl (by omega)⟩
      have := memReadRange_eq_ok (off := o) (n := l) (s := s) fun k hk =>
        ⟨by have := hl.room; omega, hl.written _ (by omega)⟩
      simp only [exec, execExport, unlessFaulted_running _ hf, exportBody, if_neg hle, this, Res.ok_bind, conclude]
      congr 2
      apply List.ext_getElem
      · simp [finalizedBytes]; omega
      · intro k h1 h2; simp [finalizedBytes]
    · obtain ⟨bits, esc, hw⟩ := writtenBits_of_not_rejects hr hinit fun o l h => hexp ⟨o, l, h⟩
      have hH := Holds.of_live hi hl
      have hlen := finalizedBytes_length s
      obtain ⟨h1, h2⟩ := putBitList_spec esc bits hH
      rw [hlen] at h1 h2
      rw [exec_write hw, unlessFaulted_running _ hf]
      by_cases hfit : Fits s bits esc
      · obtain ⟨t, ht, hT, ha, he, hc⟩ := h1 ((fits_iff_fitsFrom _ _ _).1 hfit)
        refine ⟨respond .ok [] t, by simp [noData, ht, conclude], .wrote bits esc _ hf hw hfit ?_ (hT.respond _ _)⟩
        have hlenB := writtenBits_length_le hw
        exact
          { stream := (hT.respond _ _).finalizedBytes
            progress := by
              show t.buf.read t.wc.toNat = _
              rw [hT.wc]; exact hT.progress
            wc := by
              show t.wc.toNat = _
              rw [hT.wc, List.length_append, hlen]; rfl
            bo := by
              show t.bo.toNat = _
              rw [hT.bo, restBits_length, List.length_append, ← hH.bo]
            es := he
            cap := by
              show t.cap = _
              rw [hc, capFrom_eq _ _ _ _ hl.room]
              · rfl
              · simp only [List.length_map, fullBytes_length, List.length_append]
                have := hH.pend_lt
                omega
            others := ha.others
            frame := by
              have := ha.frame
              conv_lhs => rw [this]
              rfl }
      · obtain ⟨u, hu, ha⟩ := h2 fun h => hfit ((fits_iff_fitsFrom _ _ _).2 h)
        exact ⟨_, by simp [noData, hu, conclude], .exhausted bits esc u hf hw hfit ha⟩

/-- The inversion: a next state of a command is one of the six answers. -/
theorem exec_cases {s t : State} {i : Instr} (hi : Inv s) (h : exec i s = .next t) : Answer s i t := by
  obtain ⟨u, h1, h2⟩ := exec_answers hi i
  rw [h] at h1
  cases h1
  exact h2

end Sys2Proof.Machine
end

