-- ==== Sys2Proof/Laws/PerInstr.lean ====
section
/-! SUPPORT. Statements made per instruction, one lemma for each constructor of Instr. -/

namespace Sys2Proof.Laws.EncodesReservedZero

/-- R67, R72: a well-formed instruction is encoded with RSVD = 0, and with ESC and WIDTH 0 unless it is WRITE_FIXED. -/
def Statement (i : Instr) : Prop :=
  i.wellFormed = true →
    cmdRsvd (encode i).cmd = 0 ∧
      match i with
      | .writeFixed _ _ _ => True
      | _ => cmdEsc (encode i).cmd = false ∧ cmdWidth (encode i).cmd = 0

theorem init : Statement .init := fun _ => by decide

theorem writeFixed (value width : Nat) (esc : Bool) : Statement (.writeFixed value width esc) := fun h => by
  have hw : width < 2 ^ 6 := by simp [Instr.wellFormed] at h; omega
  refine ⟨?_, trivial⟩
  simp only [cmdRsvd, wordField, encode, cmdWord, BitVec.toNat_ofNat]
  have : esc.toNat ≤ 1 := Bool.toNat_le esc
  norm_num at hw ⊢
  omega

theorem writeUE (value : Nat) : Statement (.writeUE value) := fun _ =>
  (by decide : cmdRsvd (cmdWord 0x3 false 0) = 0 ∧ cmdEsc (cmdWord 0x3 false 0) = false ∧ cmdWidth (cmdWord 0x3 false 0) = 0)

theorem writeSE (value : Int) : Statement (.writeSE value) := fun _ =>
  (by decide : cmdRsvd (cmdWord 0x4 false 0) = 0 ∧ cmdEsc (cmdWord 0x4 false 0) = false ∧ cmdWidth (cmdWord 0x4 false 0) = 0)

theorem exportBytes (offset length : Nat) : Statement (.exportBytes offset length) := fun _ =>
  (by decide : cmdRsvd (cmdWord 0x5 false 0) = 0 ∧ cmdEsc (cmdWord 0x5 false 0) = false ∧ cmdWidth (cmdWord 0x5 false 0) = 0)

end Sys2Proof.Laws.EncodesReservedZero
end

