-- ==== Sys2Proof/Machine/Assembler.lean ====
section
/-! DEFINITION. The textual command language of spec/30_encoding.md R72: one command a line, `;` starting a comment.
It is host-side: a line becomes commands, or is refused and never reaches BSW. Spaces and letter case are log 16. -/

namespace Sys2Proof.Machine

/-- The value of a digit in a base up to 16. -/
def digitValue (base : Nat) (c : Char) : Option Nat :=
  let n := c.toNat
  let v :=
    if 48 ≤ n ∧ n ≤ 57 then n - 48
    else if 97 ≤ n ∧ n ≤ 102 then n - 87
    else if 65 ≤ n ∧ n ≤ 70 then n - 55
    else 16
  if v < base then some v else none

/-- The number a non-empty digit string denotes. -/
def digitsValue (base : Nat) (cs : List Char) : Option Nat :=
  match cs with
  | [] => none
  | _ => cs.foldl (fun acc c => acc.bind fun n => (digitValue base c).map fun d => base * n + d) (some 0)

/-- How a literal was written: only WRITE_SE tells them apart. -/
inductive Literal where
  | plain (n : Nat)
  | negative (n : Nat)
  | hex (n : Nat)
  deriving DecidableEq, Repr

/-- A numeric literal: decimal, decimal with a leading `-`, `0x` hexadecimal or `0b` binary (R72). -/
def parseLiteral : List Char → Option Literal
  | '-' :: cs => (digitsValue 10 cs).map .negative
  | '0' :: 'x' :: cs => (digitsValue 16 cs).map .hex
  | '0' :: 'b' :: cs => (digitsValue 2 cs).map .plain
  | cs => (digitsValue 10 cs).map .plain

/-- A literal of an unsigned operand; a minus sign is WRITE_SE's alone. -/
def Literal.unsigned : Literal → Option Nat
  | .plain n => some n
  | .negative _ => none
  | .hex n => some n

/-- WRITE_SE's literal: a value, or a 32-bit pattern in hexadecimal (R72). -/
def Literal.signed : Literal → Option Int
  | .plain n => some n
  | .negative n => some (-(n : Int))
  | .hex n => if n < 2 ^ 32 then some (sint (BitVec.ofNat 32 n)) else none

/-- Whether a character separates words. -/
def isBlank (c : Char) : Bool := c == ' ' || c == '\t'

/-- Drop the blanks at both ends. -/
def trimBlanks (cs : List Char) : List Char := ((cs.dropWhile isBlank).reverse.dropWhile isBlank).reverse

/-- Split at commas. -/
def splitCommas : List Char → List (List Char)
  | [] => [[]]
  | ',' :: cs => [] :: splitCommas cs
  | c :: cs =>
    match splitCommas cs with
    | [] => [[c]]
    | w :: ws => (c :: w) :: ws

/-- The operands of a line: none, or literals between commas; `none` when one is no literal. -/
def parseOperands (cs : List Char) : Option (List Literal) :=
  if trimBlanks cs = [] then some []
  else (splitCommas cs).foldr (fun w acc => acc.bind fun ls => (parseLiteral (trimBlanks w)).map (· :: ls)) (some [])

/-- The operations a line can name: the five commands, their aliases (R72) and the pseudo-instructions (R73). -/
inductive LineOp where
  | init | writeFixed | writeUE | writeSE | exportBytes | align | startCode3 | startCode4 | unitHeader | stop
  deriving DecidableEq, Repr

/-- The names of R72 and R73. -/
def lineOps : List (String × LineOp) :=
  [("INIT", .init), ("init", .init), ("WRITE_FIXED", .writeFixed), ("write_fixed", .writeFixed),
   ("WRITE_UE", .writeUE), ("write_unsigned_exp_golomb", .writeUE),
   ("WRITE_SE", .writeSE), ("write_signed_exp_golomb", .writeSE), ("EXPORT", .exportBytes), ("export", .exportBytes),
   ("ALIGN", .align), ("STARTCODE3", .startCode3), ("STARTCODE4", .startCode4), ("UNIT_HEADER", .unitHeader),
   ("STOP", .stop)]

/-- The operation of a name. -/
def findLineOp (name : List Char) : Option LineOp :=
  (lineOps.find? fun p => p.1.toList == name).map (·.2)

/-- The instructions of an operation with its operands; `none` for a wrong number or kind of operands. `st` is the STATUS
word the host read, for ALIGN. -/
def lineInstrs (st : Word) (op : LineOp) (ops : List Literal) : Option (List Instr) :=
  match op, ops with
  | .init, [] => some [.init]
  | .writeFixed, [v, w, e] =>
    match v.unsigned, w.unsigned, e.unsigned with
    | some v, some w, some e => if e ≤ 1 then some [.writeFixed v w (e == 1)] else none
    | _, _, _ => none
  | .writeUE, [v] => v.unsigned.map fun v => [.writeUE v]
  | .writeSE, [v] => v.signed.map fun v => [.writeSE v]
  | .exportBytes, [o, l] =>
    match o.unsigned, l.unsigned with
    | some o, some l => some [.exportBytes o l]
    | _, _ => none
  | .align, [] => some (macroAlign st)
  | .startCode3, [] => some macroStartCode3
  | .startCode4, [] => some macroStartCode4
  | .unitHeader, [f, p, t] =>
    match f.unsigned, p.unsigned, t.unsigned with
    | some f, some p, some t => some (macroUnitHeader f p t)
    | _, _, _ => none
  | .stop, [] => some macroStop
  | _, _ => none

/-- All or nothing: the command words of instructions, refused when a literal does not fit its field (R72). -/
def assembleAll : List Instr → Option (List Command)
  | [] => some []
  | i :: is => (assemble i).bind fun c => (assembleAll is).map (c :: ·)

/-- One line of R72's language: `some []` for a blank or comment line, `none` for a refused one. -/
def assembleLine (st : Word) (line : List Char) : Option (List Command) :=
  let text := trimBlanks (line.takeWhile (· != ';'))
  if text = [] then some []
  else
    (findLineOp (text.takeWhile fun c => !isBlank c)).bind fun op =>
    (parseOperands (text.dropWhile fun c => !isBlank c)).bind fun ops =>
    (lineInstrs st op ops).bind assembleAll

end Sys2Proof.Machine
end

