-- ==== Sys2Proof/Tests/Slice0.lean ====
section
/-! SUPPORT. The model's own tests. Expected results come from spec/95_test_vectors.md (the vector is named) or from the
spec's encoding tables by hand; the witnesses show that each statement's hypotheses can be met together. -/

namespace Sys2Proof.Tests

open Sys2Proof Sys2Proof.Machine Sys2Proof.Safety

/-! ### Helpers -/

/-- An outcome is a next state with a property. -/
def answers (o : Host.Outcome State Fault Refusal) (p : State → Bool) : Bool :=
  match o with
  | .next t => p t
  | _ => false

theorem exists_of_answers {o : Host.Outcome State Fault Refusal} {p : State → Bool} (h : answers o p = true) :
    ∃ t, o = .next t ∧ p t = true := by
  cases o with
  | next t => exact ⟨t, rfl, h⟩
  | fault f => simp [answers] at h
  | refused r => simp [answers] at h

/-- A running writer with finalized bytes `bytes`, then the in-progress byte `last` holding `bo` bits. -/
def running (p : Config.Params) (bytes : List Byte) (last : Byte) (bo : BitVec 3) (es : EscState) : State :=
  { State.resetWith p with
    buf := (bytes ++ [last]).zipIdx.map fun x => (x.2, x.1)
    wc := BitVec.ofNat 32 bytes.length
    bo := bo
    es := es }

/-- The writer of 95_test_vectors.md 2.6: out `AB CD`, WC 2, BO 3. -/
def writerX : State := running Config.defaultParams [0xAB#8, 0xCD#8] 0x20#8 3 .noZeros

/-- A writer after two escaped zero bytes, with 7 zero bits pending (vector E17 before its last command). -/
def writerE17 : State := running Config.defaultParams [0x00#8, 0x00#8] 0x00#8 7 .twoOrMoreZeros

/-- A writer of capacity 8 with three bytes: its next finalization is the last that fits (vector G1). -/
def writerG : State := running ⟨8, 8⟩ [0xAA#8, 0xAA#8, 0xAA#8] 0x00#8 0 .noZeros

/-- The same with four bytes: no finalization fits (vector G1). -/
def writerFull : State := running ⟨8, 8⟩ [0xAA#8, 0xAA#8, 0xAA#8, 0xAA#8] 0x00#8 0 .noZeros

/-- A writer with a latched fault (R182). -/
def writerFaulted : State :=
  { State.reset with flt := true, err := true, cause := some .resourceExhausted }

theorem inv_writerX : Inv writerX where
  legal := by decide
  wf := by decide
  below := by decide
  capRange := by decide
  errCause := by decide
  fltCause := by decide
  live _ := { room := by decide, written := by decide, clean := by decide, capForm := by decide }

theorem inv_writerE17 : Inv writerE17 where
  legal := by decide
  wf := by decide
  below := by decide
  capRange := by decide
  errCause := by decide
  fltCause := by decide
  live _ := { room := by decide, written := by decide, clean := by decide, capForm := by decide }

theorem inv_writerG : Inv writerG where
  legal := by decide
  wf := by decide
  below := by decide
  capRange := by decide
  errCause := by decide
  fltCause := by decide
  live _ := { room := by decide, written := by decide, clean := by decide, capForm := by decide }

theorem inv_writerFull : Inv writerFull where
  legal := by decide
  wf := by decide
  below := by decide
  capRange := by decide
  errCause := by decide
  fltCause := by decide
  live _ := { room := by decide, written := by decide, clean := by decide, capForm := by decide }

theorem inv_writerFaulted : Inv writerFaulted where
  legal := by decide
  wf := by decide
  below := by decide
  capRange := by decide
  errCause := by decide
  fltCause := by decide
  live h := by simp [writerFaulted] at h

/-- The state in which the host presents one command. -/
def withCommand (c : Command) (s : State) : State := { s with port := [.command c] }

/-! ### Decoding: words written out from R61, R62 (OP 3:0, ESC 4, WIDTH 10:5) and the vectors' CMD words -/

theorem test_decode_init : decode ⟨0b00000000000000000000000000000001#32, 0xFFFFFFFF#32, 0xFFFFFFFF#32⟩ = some .init := by
  decide
theorem test_decode_writeFixed :
    decode ⟨0b00000000000000000000010000010010#32, 5#32, 0#32⟩ = some (.writeFixed 5 32 true) := by decide
theorem test_decode_writeUE : decode ⟨0b00000000000000000000000000000011#32, 4#32, 9#32⟩ = some (.writeUE 4) := by decide
theorem test_decode_writeSE :
    decode ⟨0b00000000000000000000000000000100#32, 0x80000000#32, 0#32⟩ = some (.writeSE (-2147483648)) := by decide
theorem test_decode_exportBytes :
    decode ⟨0b00000000000000000000000000000101#32, 1#32, 0xFFFFFFFF#32⟩ = some (.exportBytes 1 4294967295) := by decide
/-- Vectors D1 to D12: the illegal words. -/
theorem test_decode_illegal :
    ([0x00, 0x11, 0x21, 0x801, 0x13, 0x23, 0x14, 0x25, 0x06, 0x07, 0x0F, 0x800, 0xFFFFFFFF, 0x80000002, 0x822, 0x802].all
      fun w => decode ⟨BitVec.ofNat 32 w, 0, 0⟩ == none) = true := by decide
theorem test_decodeTableWord :
    decodeTableWord 32 0x00000412 = some (.writeFixed 0 32 true) ∧
    decodeTableWord 96 0x000000090000000100000005 = some (.exportBytes 1 9) := by decide
/-- CMD words of vectors F2, S1 and V11, encoded. -/
theorem test_encode :
    encode (.writeFixed 0xFFFFFFFF 32 true) = ⟨0x00000412#32, 0xFFFFFFFF#32, 0#32⟩ ∧
    encode (.writeFixed 1 24 false) = ⟨0x00000302#32, 1#32, 0#32⟩ ∧
    encode (.writeSE (-65535)) = ⟨0x00000004#32, 0xFFFF0001#32, 0#32⟩ := by decide

/-! ### WellFormed: one ill-formed term for each check -/

theorem test_wellFormed_value : Instr.wellFormed (.writeFixed (2 ^ 32) 8 false) = false := by decide
theorem test_wellFormed_width : Instr.wellFormed (.writeFixed 0 64 false) = false := by decide
theorem test_wellFormed_ue : Instr.wellFormed (.writeUE (2 ^ 32)) = false := by decide
theorem test_wellFormed_se_high : Instr.wellFormed (.writeSE (2 ^ 31)) = false := by decide
theorem test_wellFormed_se_low : Instr.wellFormed (.writeSE (-(2 ^ 31) - 1)) = false := by decide
theorem test_wellFormed_offset : Instr.wellFormed (.exportBytes (2 ^ 32) 0) = false := by decide
theorem test_wellFormed_length : Instr.wellFormed (.exportBytes 0 (2 ^ 32)) = false := by decide
theorem test_wellFormed_accepts :
    Instr.wellFormed (.writeFixed (2 ^ 32 - 1) 63 true) = true ∧ Instr.wellFormed (.writeSE (-(2 ^ 31))) = true := by decide

/-! ### One step of each command -/

/-- Vector I4: INIT clears ERR and CAUSE, and the stream. -/
theorem test_init : answers (exec .init { writerX with err := true, cause := some .widthRange })
    (fun t => t.buf == [(0, 0x00#8)] && t.wc == 0 && t.bo == 0 && status t == 0 && t.cap == 1024) = true := by decide
/-- Vector I5: INIT executes while FLT = 1. -/
theorem test_init_faulted : answers (exec .init writerFaulted) (fun t => !t.flt && t.resp == some okResponse) = true := by
  decide

/-- Vector F12: an unaligned 32-bit write. -/
theorem test_writeFixed_unaligned :
    answers (exec (.writeFixed 0x12345678 32 false) (running Config.defaultParams [] 0x00#8 3 .noZeros))
      (fun t => finalizedBytes t == [0x02#8, 0x46#8, 0x8A#8, 0xCF#8] && inProgress t == 0x00#8 && status t == 3) = true := by
  decide
/-- Vector F8, its second command: two insertions in one 32-bit write. -/
theorem test_writeFixed_two_insertions :
    answers (exec (.writeFixed 0 32 true) (running Config.defaultParams [0x00#8, 0x00#8] 0x00#8 0 .twoOrMoreZeros))
      (fun t => finalizedBytes t == [0x00#8, 0x00#8, 0x03#8, 0x00#8, 0x00#8, 0x00#8, 0x03#8, 0x00#8] && t.wc == 8 &&
        t.es == .noZeros) = true := by decide

/-- Vector E17: an escape byte inside a code. -/
theorem test_writeUE_escape_inside : answers (exec (.writeUE 1) writerE17)
    (fun t => finalizedBytes t == [0x00#8, 0x00#8, 0x03#8, 0x00#8] && t.bo == 2 && inProgress t == 0x80#8 &&
      t.es == .noZeros) = true := by decide
/-- Vector U17: a two-field code. -/
theorem test_writeUE_two_fields : answers (exec (.writeUE 65536) State.reset)
    (fun t => finalizedBytes t == [0x00#8, 0x00#8, 0x80#8, 0x00#8] && inProgress t == 0x80#8 && status t == 0x11#32) = true := by
  decide

/-- Vector V10. -/
theorem test_writeSE_largest : answers (exec (.writeSE 65535) State.reset)
    (fun t => finalizedBytes t == [0x00#8, 0x00#8, 0xFF#8, 0xFF#8] && inProgress t == 0x00#8 && t.bo == 1) = true := by decide
/-- Vector V15: no overflow of the absolute value. -/
theorem test_writeSE_smallest_word : answers (exec (.writeSE (-2147483648)) State.reset)
    (fun t => status t == 0x3200#32 && t.bo == 0) = true := by decide

/-- Vector X4. -/
theorem test_exportBytes : answers (exec (.exportBytes 1 1) writerX)
    (fun t => t.resp == some { code := .ok, data := [0xCD#8] } && status t == 3) = true := by decide
/-- Vector X9: the sum is not wrapped. -/
theorem test_exportBytes_no_wrap : answers (exec (.exportBytes 0xFFFFFFFF 2) writerX)
    (fun t => t.resp == some ⟨.error .exportRange, []⟩ && status t == 0x4203#32) = true := by decide

/-! ### Growth, exhaustion, refusal, reset, the port -/

/-- Vector G10: the fifth finalization of a capacity of 8 grows it to 1032. -/
theorem test_growth :
    answers (exec (.writeFixed 4 8 false) (running ⟨8, 4096⟩ [0x00#8, 0x01#8, 0x02#8, 0x03#8] 0x00#8 0 .noZeros))
      (fun t => t.cap == 1032 && finalizedBytes t == [0x00#8, 0x01#8, 0x02#8, 0x03#8, 0x04#8]) = true := by decide
/-- Vector G1, the fifth write. -/
theorem test_exhaustion : answers (exec (.writeFixed 0xAA 8 false) writerFull)
    (fun t => t.flt && t.err && t.cause == some .resourceExhausted && t.resp == some exhaustedResponse) = true := by decide
/-- Program P5, step 6: refusal comes before illegality. -/
theorem test_refusal_first : answers (step (withCommand ⟨0x801#32, 0, 0⟩ writerFaulted))
    (fun t => t.resp == some ⟨.refusedFaulted, []⟩ && t.cause == some .resourceExhausted) = true := by decide
/-- Vector D4: a malformed INIT does not initialise. -/
theorem test_malformed_init : answers (step (withCommand ⟨0x801#32, 0, 0⟩ writerX))
    (fun t => t.wc == 2 && status t == 0x1203#32) = true := by decide
/-- R200. -/
theorem test_reset_event : answers (step { writerFaulted with port := [.reset] })
    (fun t => t == State.reset) = true := by decide
/-- The word placed by withFetchWord is what the next step runs. -/
theorem test_withFetchWord : answers (step (State.reset.withFetchWord 96 0x000000050000010200000102))
    (fun t => finalizedBytes t == [0x02#8] && t.port == []) = true := by decide
/-- R195. -/
theorem test_idle : answers (step State.reset) (fun t => t == State.reset) = true := by decide

/-! ### The escaper (R125 (c), vectors E7 and E8), the chunked form, the host macros and the assembler -/

theorem test_escaper_counterexamples :
    emitBytes .noZeros ([0, 0, 0, 0, 1].map fun b => (b, true)) = [0x00#8, 0x00#8, 0x03#8, 0x00#8, 0x00#8, 0x01#8] ∧
    emitBytes .noZeros ([0, 0, 0, 0, 0, 1].map fun b => (b, true)) =
      [0x00#8, 0x00#8, 0x03#8, 0x00#8, 0x00#8, 0x00#8, 0x03#8, 0x01#8] := by decide
/-- The Unescape check of vector E9. -/
theorem test_unescape_E9 :
    unescape .noZeros ([0x00#8, 0x00#8, 0x03#8, 0x00#8, 0x00#8, 0x03#8, 0x01#8].map fun b => (b, false)) =
      [0x00#8, 0x00#8, 0x00#8, 0x00#8, 0x03#8, 0x01#8] := by decide
/-- Vector F3's second command by the chunked procedure. -/
theorem test_chunked :
    answers (conclude (noData (writeFixedChunked false 0xFFFFFFFF 32 (running Config.defaultParams [] 0x00#8 7 .noZeros))))
      (fun t => finalizedBytes t == [0x01#8, 0xFF#8, 0xFF#8, 0xFF#8] && inProgress t == 0xFE#8 && t.bo == 7) = true := by decide
/-- Vector S8: ALIGN from BO = 3. -/
theorem test_align : macroAlign (status writerX) = [.writeFixed 0 5 false] ∧ macroAlign (status State.reset) = [] := by decide
/-- Program P1, lines 2 to 5, 13 and 14. -/
theorem test_unit :
    (macroUnit 1 macroStartCode4 0 3 7 []).map (fun i => (encode i).cmd) =
      [0xE2#32, 0x402#32, 0x22#32, 0x42#32, 0xA2#32, 0x32#32] := by decide
theorem test_assembler :
    assembleLine 0 "WRITE_FIXED 0xABCD, 16, 0 ; a field".toList = some [⟨0x202#32, 0xABCD#32, 0⟩] ∧
    assembleLine 0 "WRITE_SE -3".toList = some [⟨4#32, 0xFFFFFFFD#32, 0⟩] := by decide
theorem test_assembler_refuses : assembleLine 0 "WRITE_FIXED 1, 64, 0".toList = none := by decide

/-! ### Witnesses: for every statement with hypotheses, a concrete state and operands that meet all of them -/

theorem witness_DecodeEncodeRoundTrip : Instr.wellFormed (.writeFixed (2 ^ 32 - 1) 63 true) = true := by decide
theorem witness_DecodedInstrReencodes : decode ⟨0x7F2#32, 0xFFFFFFFF#32, 1#32⟩ = some (.writeFixed 4294967295 63 true) := by
  decide
theorem witness_StepRunsDecodedCommand :
    (withCommand ⟨3#32, 4#32, 0⟩ writerX).port = .command ⟨3#32, 4#32, 0⟩ :: [] ∧
      decode ⟨3#32, 4#32, 0⟩ = some (.writeUE 4) := by decide
/-- One word for each clause: RSVD, ESC on another OP, WIDTH on another OP, OP 0, OP 6. -/
theorem witness_MalformedWordsAreIllegal :
    (0x802#32).extractLsb' 11 21 ≠ 0#21 ∧
    ((0x13#32).extractLsb' 0 4 ≠ 2#4 ∧ (0x13#32).getLsbD 4 = true) ∧
    ((0x21#32).extractLsb' 0 4 ≠ 2#4 ∧ (0x21#32).extractLsb' 5 6 ≠ 0#6) ∧
    (0x00#32).extractLsb' 0 4 = 0#4 ∧ 6 ≤ ((0x06#32).extractLsb' 0 4).toNat ∧
    (withCommand ⟨0x802#32, 0, 0⟩ writerX).port = .command ⟨0x802#32, 0, 0⟩ :: [] := by decide
theorem witness_IdleHoldsState : writerX.port = [] := rfl
theorem witness_ResetSetsEveryField :
    ({ writerX with port := [.reset] } : State).port = .reset :: [] ∧
    ({ writerX with port := [.commandThenReset ⟨3#32, 4#32, 0⟩] } : State).port = .commandThenReset ⟨3#32, 4#32, 0⟩ :: [] ∧
    ∃ t, execCommand ⟨3#32, 4#32, 0⟩ { writerX with port := [] } = .next t := by
  obtain ⟨t, ht, -⟩ := exists_of_answers
    (show answers (execCommand ⟨3#32, 4#32, 0⟩ { writerX with port := [] }) (fun _ => true) = true by decide)
  exact ⟨rfl, rfl, t, ht⟩
theorem witness_RefusedWhileFaulted :
    (withCommand ⟨5#32, 0, 0⟩ writerFaulted).flt = true ∧ (5#32 : Word) ≠ 0x00000001#32 ∧ Inv writerFaulted :=
  ⟨rfl, by decide, inv_writerFaulted⟩
theorem witness_ContractViolationsTakeNoEffect :
    ∃ t, step (withCommand ⟨0x422#32, 5#32, 0⟩ writerX) = .next t ∧ t.resp = some ⟨.error .widthRange, []⟩ := by
  obtain ⟨t, ht, hp⟩ := exists_of_answers
    (show answers (step (withCommand ⟨0x422#32, 5#32, 0⟩ writerX))
      (fun t => decide (t.resp = some ⟨.error .widthRange, []⟩)) = true by decide)
  exact ⟨t, ht, of_decide_eq_true hp⟩
theorem witness_ResponseRecordsErrors :
    (∃ t, step (withCommand ⟨1#32, 0, 0⟩ writerFaulted) = .next t) ∧
    (∃ t, step (withCommand ⟨0x102#32, 0, 0⟩ writerFull) = .next t ∧ t.resp = some exhaustedResponse) := by
  obtain ⟨t, ht, -⟩ := exists_of_answers
    (show answers (step (withCommand ⟨1#32, 0, 0⟩ writerFaulted)) (fun _ => true) = true by decide)
  obtain ⟨u, hu, hp⟩ := exists_of_answers
    (show answers (step (withCommand ⟨0x102#32, 0, 0⟩ writerFull))
      (fun t => decide (t.resp = some exhaustedResponse)) = true by decide)
  exact ⟨⟨t, ht⟩, u, hu, of_decide_eq_true hp⟩
theorem inv_withCommand {s : State} (h : Inv s) (c : Command) : Inv (withCommand c s) :=
  ⟨h.legal, h.wf, h.below, h.capRange, h.errCause, h.fltCause,
    fun hf => ⟨(h.live hf).room, (h.live hf).written, (h.live hf).clean, (h.live hf).capForm⟩⟩
/-- The boundary operands of R183's checks: widths 1, 32 and 33, code numbers 131070 and 131071. -/
theorem witness_ResponsePriority :
    Inv (withCommand ⟨0x22#32, 0, 0⟩ writerX) ∧ decode ⟨0x22#32, 0, 0⟩ = some (.writeFixed 0 1 false) ∧
    decode ⟨0x402#32, 0, 0⟩ = some (.writeFixed 0 32 false) ∧ decode ⟨0x422#32, 0, 0⟩ = some (.writeFixed 0 33 false) ∧
    decode ⟨3#32, 131070#32, 0⟩ = some (.writeUE 131070) ∧ decode ⟨3#32, 131071#32, 0⟩ = some (.writeUE 131071) ∧
    decode ⟨4#32, 0xFFFF0000#32, 0⟩ = some (.writeSE (-65536)) :=
  ⟨inv_withCommand inv_writerX _, by decide, by decide, by decide, by decide, by decide, by decide⟩
/-- Each clause at its boundary, on one state. -/
theorem witness_OperandChecksReject : writerX.flt = false ∧ (0 = 0 ∨ 32 < 0) ∧ (33 = 0 ∨ 32 < 33) ∧ 131071 ≤ 131071 ∧
    ((-65536 : Int) ≤ -65536 ∨ (65536 : Int) ≤ -65536) ∧ writerX.wc.toNat < 3 + 0 ∧ writerX.wc.toNat < 0 + 3 := by decide
theorem witness_EveryCommandAnswersOnce :
    ∃ t, step (withCommand ⟨5#32, 0, 2#32⟩ writerX) = .next t ∧
      t.resp = some { code := .ok, data := [0xAB#8, 0xCD#8] } := by
  obtain ⟨t, ht, hp⟩ := exists_of_answers
    (show answers (step (withCommand ⟨5#32, 0, 2#32⟩ writerX))
      (fun t => decide (t.resp = some { code := .ok, data := [0xAB#8, 0xCD#8] })) = true by decide)
  exact ⟨t, ht, of_decide_eq_true hp⟩
theorem witness_OnlyInitOrResetLeaveFault :
    ∃ t, step (withCommand ⟨1#32, 0, 0⟩ writerFaulted) = .next t ∧ t.flt = false := by
  obtain ⟨t, ht, hp⟩ := exists_of_answers
    (show answers (step (withCommand ⟨1#32, 0, 0⟩ writerFaulted)) (fun t => decide (t.flt = false)) = true by decide)
  exact ⟨t, ht, of_decide_eq_true hp⟩
theorem witness_ConfigurationIsFixed : ∃ t, step writerX = .next t := ⟨writerX, rfl⟩

/-- The last finalization that fits, an escaped write that inserts, and the largest codes. -/
theorem witness_WriteFixedCompletes :
    Inv writerG ∧ writerG.flt = false ∧ Fits writerG (fieldBits 0xAA 8) false ∧ Fits writerE17 (fieldBits 0 32) true :=
  ⟨inv_writerG, rfl, by decide, by decide⟩
theorem witness_WriteUECompletes : Inv writerE17 ∧ writerE17.flt = false ∧ Fits writerE17 (ueBits 131070) true :=
  ⟨inv_writerE17, rfl, by decide⟩
theorem witness_WriteSECompletes : Inv writerE17 ∧ (-65535 : Int) ≤ -65535 ∧
    ((131070 : Nat) : Int) = (if 0 < (-65535 : Int) then 2 * (-65535) - 1 else -2 * (-65535)) ∧
    Fits writerE17 (ueBits 131070) true := ⟨inv_writerE17, by decide, by decide, by decide⟩
theorem witness_WritesPastCapacityExhaust : Inv writerFull ∧ writerFull.flt = false ∧
    writtenBits (.writeFixed 0xAA 8 false) = some (fieldBits 0xAA 8, false) ∧ ¬ Fits writerFull (fieldBits 0xAA 8) false :=
  ⟨inv_writerFull, rfl, by decide, by decide⟩
/-- Both sides of the exhaustion point. -/
theorem witness_ExhaustionPoint : Inv writerG ∧ writerG.wc.toNat + 5 ≤ capMax writerG.params ∧ Inv writerFull ∧
    capMax writerFull.params < writerFull.wc.toNat + 5 := ⟨inv_writerG, by decide, inv_writerFull, by decide⟩
theorem witness_NoOverrun : Inv writerG ∧ writerG.flt = false ∧ (∃ t, grow writerG = .ok t) ∧
    ∃ t, finalizeByte true writerG = .ok t := by
  refine ⟨inv_writerG, rfl, ⟨writerG, by decide⟩, ?_⟩
  have : (match finalizeByte true writerG with | .ok _ => true | _ => false) = true := by decide
  split at this
  · rename_i t ht; exact ⟨t, ht⟩
  · simp at this
theorem witness_CapacityOnlyGrows : Inv (withCommand ⟨1#32, 0, 0⟩ writerX) ∧
    (∃ t, step (withCommand ⟨1#32, 0, 0⟩ writerX) = .next t) ∧
    ∃ t, step (withCommand ⟨0x102#32, 0, 0⟩ writerX) = .next t ∧ t.resp ≠ some exhaustedResponse := by
  obtain ⟨t, ht, -⟩ := exists_of_answers
    (show answers (step (withCommand ⟨1#32, 0, 0⟩ writerX)) (fun _ => true) = true by decide)
  obtain ⟨u, hu, hp⟩ := exists_of_answers
    (show answers (step (withCommand ⟨0x102#32, 0, 0⟩ writerX))
      (fun t => decide (t.resp ≠ some exhaustedResponse)) = true by decide)
  exact ⟨inv_withCommand inv_writerX _, ⟨t, ht⟩, u, hu, of_decide_eq_true hp⟩

/-- A write of 32 bits from BO = 7 with an insertion, for the cursor, readback and isolation statements. -/
theorem witness_writeFixed_ok : Inv writerE17 ∧ writerE17.flt = false ∧
    ∃ t, exec (.writeFixed 5 32 true) writerE17 = .next t ∧ t.resp = some okResponse := by
  obtain ⟨t, ht, hp⟩ := exists_of_answers
    (show answers (exec (.writeFixed 5 32 true) writerE17) (fun t => decide (t.resp = some okResponse)) = true by decide)
  exact ⟨inv_writerE17, rfl, t, ht, of_decide_eq_true hp⟩
theorem witness_WriteFixedCursorAdvance : 1 ≤ 32 ∧ 32 ≤ 32 ∧
    ∃ t, exec (.writeFixed 5 32 true) writerE17 = .next t ∧ t.resp = some okResponse :=
  ⟨by decide, by decide, witness_writeFixed_ok.2.2⟩
theorem witness_ExpGolombCursorAdvance : Inv writerE17 ∧ writerE17.flt = false ∧
    (∃ t, exec (.writeUE 131070) writerE17 = .next t ∧ t.resp = some okResponse) ∧
    (∃ t, exec (.writeSE (-65535)) writerE17 = .next t ∧ t.resp = some okResponse) := by
  obtain ⟨t, ht, hp⟩ := exists_of_answers
    (show answers (exec (.writeUE 131070) writerE17) (fun t => decide (t.resp = some okResponse)) = true by decide)
  obtain ⟨u, hu, hq⟩ := exists_of_answers
    (show answers (exec (.writeSE (-65535)) writerE17) (fun t => decide (t.resp = some okResponse)) = true by decide)
  exact ⟨inv_writerE17, rfl, ⟨t, ht, of_decide_eq_true hp⟩, u, hu, of_decide_eq_true hq⟩
theorem witness_ChunkedEqualsBitSerial : Inv writerFull ∧ writerFull.flt = false ∧ 0xFFFFFFFF < 2 ^ 32 ∧ 1 ≤ 32 :=
  ⟨inv_writerFull, rfl, by decide, by decide⟩
/-- BO = 7 with room, and BO = 3. -/
theorem witness_CompletingBitDecidesEscape : Inv writerE17 ∧ writerE17.bo.toNat = 7 ∧
    writerE17.wc.toNat + 5 ≤ capMax writerE17.params ∧ Inv writerX ∧ writerX.bo.toNat < 7 :=
  ⟨inv_writerE17, by decide, by decide, inv_writerX, by decide⟩
theorem witness_OnlyEscapedFinalizationsMoveEs : Inv (withCommand ⟨0x32#32, 0, 0⟩ writerE17) ∧
    ∃ t, step (withCommand ⟨0x32#32, 0, 0⟩ writerE17) = .next t ∧ t.resp ≠ some exhaustedResponse ∧ t.es ≠ writerE17.es := by
  obtain ⟨t, ht, hp⟩ := exists_of_answers
    (show answers (step (withCommand ⟨0x32#32, 0, 0⟩ writerE17))
      (fun t => decide (t.resp ≠ some exhaustedResponse ∧ t.es ≠ writerE17.es)) = true by decide)
  exact ⟨inv_withCommand inv_writerE17 _, t, ht, (of_decide_eq_true hp).1, (of_decide_eq_true hp).2⟩
/-- With two insertions, and (from writerX) without one. -/
theorem witness_ReadbackGivesValue : 5 < 2 ^ 32 ∧ insertions writerE17.es (finalizes writerE17 (fieldBits 5 32) true) = 2 ∧
    (∃ t, exec (.writeFixed 5 32 true) writerE17 = .next t ∧ t.resp = some okResponse) ∧ Inv writerX ∧
    0xFFFFFFFF < 2 ^ 32 ∧ insertions writerX.es (finalizes writerX (fieldBits 0xFFFFFFFF 32) true) = 0 ∧
    (∃ t, exec (.writeFixed 0xFFFFFFFF 32 true) writerX = .next t ∧ t.resp = some okResponse) := by
  obtain ⟨t, ht, hp⟩ := exists_of_answers
    (show answers (exec (.writeFixed 0xFFFFFFFF 32 true) writerX)
      (fun t => decide (t.resp = some okResponse)) = true by decide)
  exact ⟨by decide, by decide, witness_writeFixed_ok.2.2, inv_writerX, by decide, by decide, t, ht, of_decide_eq_true hp⟩
theorem witness_EscaperTable : (0x00#8).toNat = 0 ∧ 1 ≤ (0x01#8).toNat ∧ (0x03#8).toNat ≤ 3 ∧ 4 ≤ (0x04#8).toNat := by decide
theorem witness_InsertionCounts : (epNext .twoOrMoreZeros 0x03#8).1 = true ∧
    emitEs .noZeros [(0x00#8, true), (0x00#8, true)] = .twoOrMoreZeros ∧
    (0x03#8, false, true) ∈ (emitMarked .twoOrMoreZeros [(0x00#8, true)]).1 ∧
    writtenBits (.writeFixed 0 32 true) = some (fieldBits 0 32, true) := by decide
/-- Vector E7's stream has an inserted byte at index 2, and an unescaped triple at index 3. -/
theorem witness_EscaperGuarantee :
    let m := (emitMarked .noZeros ([0, 0, 0, 0, 1].map fun b => (b, true))).1
    m[2]? = some (0x03#8, false, true) ∧ (m[3]?).map (·.1) = some 0x00#8 ∧ (m[4]?).map (·.1) = some 0x00#8 ∧
      m[5]? = some (0x01#8, false, false) := by decide
theorem witness_WrittenStreamUnescapes : Inv writerE17 ∧ writerE17.flt = false ∧
    (∀ i ∈ [Instr.writeUE 1, .writeFixed 0 7 false], (writtenBits i).isSome = true) ∧
    ∃ t, runOk [.writeUE 1, .writeFixed 0 7 false] writerE17 = some t := by
  refine ⟨inv_writerE17, rfl, by decide, ?_⟩
  exact Option.isSome_iff_exists.1 (by decide)
/-- The whole finalized range, and the empty range at WC. -/
theorem witness_ExportReturnsFinalizedBytes : Inv writerX ∧ writerX.flt = false ∧ 0 + 2 ≤ writerX.wc.toNat ∧
    2 + 0 ≤ writerX.wc.toNat := ⟨inv_writerX, rfl, by decide, by decide⟩
theorem witness_FinalizedBytesImmutable : Inv (withCommand ⟨0x112#32, 0, 0⟩ writerX) ∧ 0 < writerX.wc.toNat ∧
    ∃ t, step (withCommand ⟨0x112#32, 0, 0⟩ writerX) = .next t ∧ t.resp ≠ some exhaustedResponse := by
  obtain ⟨t, ht, hp⟩ := exists_of_answers
    (show answers (step (withCommand ⟨0x112#32, 0, 0⟩ writerX))
      (fun t => decide (t.resp ≠ some exhaustedResponse)) = true by decide)
  exact ⟨inv_withCommand inv_writerX _, by decide, t, ht, of_decide_eq_true hp⟩
/-- A rejected command and a write stand between the two exports. -/
theorem witness_ExportedBytesStayValid : Inv writerX ∧ writerX.flt = false ∧ 0 + 2 ≤ writerX.wc.toNat ∧
    ∃ t, runAll [.writeFixed 5 0 false, .writeUE 255] writerX = some t ∧ t.flt = false := by
  refine ⟨inv_writerX, rfl, by decide, ?_⟩
  have : ∃ t, runAll [.writeFixed 5 0 false, .writeUE 255] writerX = some t := Option.isSome_iff_exists.1 (by decide)
  obtain ⟨t, ht⟩ := this
  have hf : (runAll [.writeFixed 5 0 false, .writeUE 255] writerX).map (·.flt) = some false := by decide
  rw [ht] at hf
  exact ⟨t, ht, by simpa using hf⟩
/-- Each of its four clauses: the largest accepted values and the nearest rejected ones. -/
theorem witness_ExpGolombRoundTrip : Inv writerE17 ∧ writerE17.flt = false ∧
    (∃ t, exec (.writeUE 131070) writerE17 = .next t ∧ t.resp = some okResponse) ∧
    (∃ t, exec (.writeSE (-65535)) writerE17 = .next t ∧ t.resp = some okResponse) ∧
    (∃ t, exec (.writeUE 131071) writerE17 = .next t) ∧ (∃ t, exec (.writeSE 65536) writerE17 = .next t) := by
  obtain ⟨t, ht, -⟩ := exists_of_answers
    (show answers (exec (.writeUE 131071) writerE17) (fun _ => true) = true by decide)
  obtain ⟨u, hu, -⟩ := exists_of_answers
    (show answers (exec (.writeSE 65536) writerE17) (fun _ => true) = true by decide)
  exact ⟨inv_writerE17, rfl, witness_ExpGolombCursorAdvance.2.2.1, witness_ExpGolombCursorAdvance.2.2.2, ⟨t, ht⟩, u, hu⟩
/-- Aligned, unaligned with room, and unaligned without. -/
theorem witness_AlignPadsToByteBoundary : Inv writerG ∧ writerG.flt = false ∧ writerG.bo = 0 ∧ Inv writerX ∧ writerX.bo ≠ 0 ∧
    writerX.wc.toNat + 5 ≤ capMax writerX.params :=
  ⟨inv_writerG, rfl, rfl, inv_writerX, by decide, by decide⟩
/-- The parameters at both ends of R7. -/
theorem witness_ResetMeetsInvariant : (Config.Params.mk 1 1).Legal ∧ (Config.Params.mk (2 ^ 32) (2 ^ 32)).Legal := by decide
theorem witness_StepKeepsInvariant : Inv (withCommand ⟨0x102#32, 0, 0⟩ writerFull) ∧
    ∃ t, step (withCommand ⟨0x102#32, 0, 0⟩ writerFull) = .next t := by
  obtain ⟨t, ht, -⟩ := exists_of_answers
    (show answers (step (withCommand ⟨0x102#32, 0, 0⟩ writerFull)) (fun _ => true) = true by decide)
  exact ⟨inv_withCommand inv_writerFull _, t, ht⟩
theorem witness_StepAlwaysAnswers : Inv writerE17 := inv_writerE17
/-- Two capacities of one stream. -/
theorem witness_CapacityUnobservable : Inv writerG ∧ Inv { writerG with cap := 1032, params := ⟨8, 2 ^ 32⟩ } ∧
    (∃ t, exec (.writeFixed 0xAA 8 true) writerG = .next t ∧ t.resp ≠ some exhaustedResponse) ∧
    ∃ t, exec (.writeFixed 0xAA 8 true) { writerG with cap := 1032, params := ⟨8, 2 ^ 32⟩ } = .next t ∧
      t.resp ≠ some exhaustedResponse := by
  obtain ⟨t, ht, hp⟩ := exists_of_answers
    (show answers (exec (.writeFixed 0xAA 8 true) writerG)
      (fun t => decide (t.resp ≠ some exhaustedResponse)) = true by decide)
  obtain ⟨u, hu, hq⟩ := exists_of_answers
    (show answers (exec (.writeFixed 0xAA 8 true) { writerG with cap := 1032, params := ⟨8, 2 ^ 32⟩ })
      (fun t => decide (t.resp ≠ some exhaustedResponse)) = true by decide)
  exact ⟨inv_writerG,
    { legal := by decide, wf := by decide, below := by decide, capRange := by decide, errCause := by decide,
      fltCause := by decide,
      live := fun _ => { room := by decide, written := by decide, clean := by decide, capForm := by decide } },
    ⟨t, ht, of_decide_eq_true hp⟩, u, hu, of_decide_eq_true hq⟩
/-- A byte above the in-progress byte. -/
theorem witness_UnspecifiedBytesPlayNoPart :
    let buf : Memory := [(0, 0xAB#8), (1, 0xCD#8), (2, 0x20#8), (3, 0x77#8)]
    Inv writerX ∧ Inv { writerX with buf := buf } ∧ writerX.flt = false ∧
      (∀ a < writerX.wc.toNat + 1, buf.read a = writerX.buf.read a) ∧
      (∃ t, exec (.writeFixed 0 8 true) writerX = .next t) ∧
      ∃ t, exec (.writeFixed 0 8 true) { writerX with buf := buf } = .next t := by
  intro buf
  obtain ⟨t, ht, -⟩ := exists_of_answers
    (show answers (exec (.writeFixed 0 8 true) writerX) (fun _ => true) = true by decide)
  obtain ⟨u, hu, -⟩ := exists_of_answers
    (show answers (exec (.writeFixed 0 8 true) { writerX with buf := [(0, 0xAB#8), (1, 0xCD#8), (2, 0x20#8), (3, 0x77#8)] })
      (fun _ => true) = true by decide)
  exact ⟨inv_writerX,
    { legal := by decide, wf := by decide, below := by decide, capRange := by decide, errCause := by decide,
      fltCause := by decide,
      live := fun _ => { room := by decide, written := by decide, clean := by decide, capForm := by decide } },
    rfl, by decide, ⟨t, ht⟩, u, hu⟩

end Sys2Proof.Tests
end

section
/-! SUPPORT. The frame of every procedure, of every command and of a step, from every state: no invariant is needed.
`exec_ending` says once in which ways a command ends, `step_of_…` what a step does with each event; the settled
statement is read off them. -/

namespace Sys2Proof.Machine

open Sys2Proof.Safety

/-! ### What a procedure may change -/

/-- `t` is `s` but for the writer's fields BUF, WC, BO, ES and CAP. -/
def WriterOnly (s t : State) : Prop :=
  t = { s with buf := t.buf, wc := t.wc, bo := t.bo, es := t.es, cap := t.cap }

theorem WriterOnly.refl (s : State) : WriterOnly s s := rfl

theorem WriterOnly.trans {s t u : State} (h : WriterOnly s t) (k : WriterOnly t u) : WriterOnly s u := by
  unfold WriterOnly at *
  rw [k, h]

theorem WriterOnly.params {s t : State} (h : WriterOnly s t) : t.params = s.params := by rw [h]
theorem WriterOnly.port {s t : State} (h : WriterOnly s t) : t.port = s.port := by rw [h]

/-- From `s`, a procedure that ends, ends in a state with the writer changed only, and the one error it raises is
RESOURCE_EXHAUSTED. -/
inductive Res.Keeps (s : State) : Res State → Prop where
  | ok {t : State} : WriterOnly s t → Res.Keeps s (.ok t)
  | exhausted {t : State} : WriterOnly s t → Res.Keeps s (.raise .resourceExhausted t)
  | fault (f : Fault) : Res.Keeps s (.fault f)

/-- What a procedure keeps from `t`, it keeps from a state that `t` differs from in the writer only. -/
theorem Res.Keeps.of_writerOnly {s t : State} {r : Res State} (h : WriterOnly s t) (hr : r.Keeps t) : r.Keeps s := by
  cases hr with
  | ok h' => exact .ok (h.trans h')
  | exhausted h' => exact .exhausted (h.trans h')
  | fault f => exact .fault f

theorem Res.Keeps.bind {s : State} {r : Res State} {k : State → Res State} (h : r.Keeps s)
    (hk : ∀ t, (k t).Keeps t) : (r.bind k).Keeps s := by
  cases h with
  | ok h => exact .of_writerOnly h (hk _)
  | exhausted h => exact .exhausted h
  | fault f => exact .fault f

/-- A read changes nothing, so what follows it decides. -/
theorem memRead_bind_keeps {s : State} (i : Nat) {k : Byte → Res State} (hk : ∀ b, (k b).Keeps s) :
    ((memRead i s).bind k).Keeps s := by
  cases h : memRead i s with
  | ok b => exact hk b
  | raise e u => exact absurd h memRead_ne_raise
  | fault f => exact .fault f

theorem memWrite_keeps (i : Nat) (v : Byte) (s : State) : (memWrite i v s).Keeps s := by
  unfold memWrite
  split
  · exact .ok rfl
  · exact .fault _

/-! ### The internal procedures (R80, R100, R101, R122) -/

theorem grow_keeps (s : State) : (grow s).Keeps s := by
  rw [grow_def]
  split_ifs
  · exact .exhausted (.refl s)
  · exact .ok rfl
  · exact .ok (.refl s)

theorem escapeFinalized_keeps (b : Byte) (s : State) : (escapeFinalized b s).Keeps s := by
  have hes : WriterOnly s { s with es := (epNext s.es b).2 } := rfl
  refine .of_writerOnly hes ?_
  unfold escapeFinalized
  dsimp only
  split
  · exact (memWrite_keeps _ _ _).bind fun t => (memWrite_keeps _ _ t).bind fun _ => .ok rfl
  · exact .ok (.refl _)

theorem startByte_keeps (s : State) : (startByte s).Keeps s :=
  .of_writerOnly (t := bumpWc s) rfl ((memWrite_keeps _ _ _).bind fun _ => .ok rfl)

theorem finalizeByte_keeps (esc : Bool) (s : State) : (finalizeByte esc s).Keeps s := by
  refine (grow_keeps s).bind fun t => memRead_bind_keeps _ fun b => Res.Keeps.bind ?_ startByte_keeps
  split
  · exact escapeFinalized_keeps b t
  · exact .ok (.refl t)

theorem putBit_keeps (esc bit : Bool) (s : State) : (putBit esc bit s).Keeps s := by
  refine memRead_bind_keeps _ fun b => (memWrite_keeps _ _ s).bind fun t => ?_
  split
  · exact finalizeByte_keeps esc t
  · exact .ok rfl

theorem putBitList_keeps (esc : Bool) (bits : List Bool) (s : State) : (putBitList esc bits s).Keeps s := by
  induction bits generalizing s with
  | nil => exact .ok (.refl s)
  | cons bit bits ih => exact (putBit_keeps esc bit s).bind ih

@[simp] theorem memReadRange_ne_raise {off n : Nat} {s t : State} {e : ErrorCode} :
    memReadRange off n s ≠ .raise e t := by
  induction n generalizing off with
  | zero => simp [memReadRange]
  | succ n ih => simp [memReadRange, Res.bind_eq_raise, ih]

/-! ### Commands (R163, R183) -/

/-- In which state a command that answers ends, from any state. -/
inductive Ending (s : State) (i : Instr) : State → Prop where
  /-- INIT (R160). -/
  | init : i = .init → Ending s i (respond .ok [] (initWriter s))
  /-- R185. -/
  | refused : i ≠ .init → s.flt = true → Ending s i (refuseFaulted s)
  /-- R181. -/
  | rejected (e : ErrorCode) : i ≠ .init → s.flt = false → e ≠ .resourceExhausted → Ending s i (errorEntry e s)
  /-- A write that completes. -/
  | wrote (u : State) : i ≠ .init → s.flt = false → WriterOnly s u → Ending s i (respond .ok [] u)
  /-- A write that does not (R182). -/
  | exhausted (u : State) : i ≠ .init → s.flt = false → WriterOnly s u →
      Ending s i (errorEntry .resourceExhausted u)
  /-- R86. -/
  | exported (o l : Nat) (data : List Byte) : i = .exportBytes o l → s.flt = false →
      memReadRange o l s = .ok data → Ending s i (respond .ok data s)

/-- A write's procedure that keeps the frame ends the command completed or exhausted. -/
theorem Ending.of_write {s t : State} {i : Instr} {r : Res State} (hi : i ≠ .init) (hf : s.flt = false)
    (hr : r.Keeps s) (h : conclude (noData r) = .next t) : Ending s i t := by
  cases hr with
  | ok hw => cases h; exact .wrote _ hi hf hw
  | exhausted hw => cases h; exact .exhausted _ hi hf hw
  | fault f => cases h

/-- EXPORT past its range check ends with the bytes it copied, or not at all. -/
theorem Ending.of_exportBytes {s t : State} {o l : Nat} (hf : s.flt = false) (hr : rejects s (.exportBytes o l) = none)
    (h : exec (.exportBytes o l) s = .next t) : Ending s (.exportBytes o l) t := by
  have hle : ¬ s.wc.toNat < o + l := fun hlt => by simp [rejects, hlt] at hr
  simp only [exec, execExport, unlessFaulted_running _ hf, exportBody, if_neg hle] at h
  cases hd : memReadRange o l s with
  | ok data => rw [hd] at h; cases h; exact .exported o l data rfl hf hd
  | raise e u => exact absurd hd memReadRange_ne_raise
  | fault f => rw [hd] at h; cases h

/-- The inversion of a command without an invariant: INIT, refused, rejected, an EXPORT, or a write. -/
theorem exec_ending {s t : State} {i : Instr} (h : exec i s = .next t) : Ending s i t := by
  by_cases hinit : i = .init
  · subst hinit; cases h; exact .init rfl
  by_cases hf : s.flt = true
  · rw [exec_faulted hf hinit] at h; cases h; exact .refused hinit hf
  replace hf : s.flt = false := by simpa using hf
  cases hr : rejects s i with
  | some e =>
    obtain ⟨hexec, he⟩ := exec_rejects hf hr
    rw [hexec] at h; cases h
    exact .rejected e hinit hf he
  | none =>
    by_cases hexp : ∃ o l, i = .exportBytes o l
    · obtain ⟨o, l, rfl⟩ := hexp
      exact .of_exportBytes hf hr h
    · obtain ⟨bits, esc, hw⟩ := writtenBits_of_not_rejects hr hinit fun o l h => hexp ⟨o, l, h⟩
      rw [exec_write hw, unlessFaulted_running _ hf] at h
      exact .of_write hinit hf (putBitList_keeps esc bits s) h

/-- However a command ends, the parameters and the host's remaining events are as they were. -/
theorem Ending.params_port {s t : State} {i : Instr} (h : Ending s i t) :
    t.params = s.params ∧ t.port = s.port := by
  cases h with
  | init | refused | rejected | exported => simp
  | wrote u _ _ hw | exhausted u _ _ hw => simp [hw.params, hw.port]

/-- The same for the words on the port, decoded or Illegal (R163). -/
theorem execCommand_params_port {c : Command} {s t : State} (h : execCommand c s = .next t) :
    t.params = s.params ∧ t.port = s.port := by
  unfold execCommand at h
  split at h
  · exact (exec_ending h).params_port
  · cases h
    unfold execIllegal
    split <;> simp

/-! ### A step by the event it takes (R29, R195, R200) -/

theorem step_of_idle {s : State} (h : s.port = []) : step s = .next s := by simp [step, nextEvent, h]

theorem step_of_command {s : State} {c : Command} {rest : List HostEvent} (h : s.port = .command c :: rest) :
    step s = execCommand c { s with port := rest } := by simp [step, nextEvent, h]

theorem step_of_reset {s : State} {rest : List HostEvent} (h : s.port = .reset :: rest) :
    step s = .next (applyReset { s with port := rest }) := by simp [step, nextEvent, h]

theorem step_of_commandThenReset {s : State} {c : Command} {rest : List HostEvent}
    (h : s.port = .commandThenReset c :: rest) : step s = execThenReset c { s with port := rest } := by
  simp [step, nextEvent, h]

/-- The inversion of a command with a reset requested: the command answered, and the reset follows (R200). -/
theorem execThenReset_eq_next {c : Command} {s t : State} (h : execThenReset c s = .next t) :
    ∃ u, execCommand c s = .next u ∧ t = resetAfterCommand u := by
  unfold execThenReset at h
  split at h <;> cases h
  exact ⟨_, ‹_›, rfl⟩

/-- Settles O17, by the event the step takes: every way a command or a reset ends keeps the parameters and the events
left once the first is consumed. -/
theorem configurationIsFixed : Obligations.ConfigurationIsFixed := by
  intro s t h
  cases hp : s.port with
  | nil =>
    rw [step_of_idle hp] at h; cases h
    simp [hp]
  | cons event rest =>
    cases event with
    | command c => exact execCommand_params_port (step_of_command hp ▸ h)
    | reset =>
      rw [step_of_reset hp] at h; cases h
      simp
    | commandThenReset c =>
      obtain ⟨u, hu, rfl⟩ := execThenReset_eq_next (step_of_commandThenReset hp ▸ h)
      exact execCommand_params_port hu

end Sys2Proof.Machine
end

section
/-! SUPPORT. The invariant of R28: it holds right after INIT and reset, and every answer of a command keeps it. The two
settled statements on it, and the one on the table of R34, which the same states meet. -/

namespace Sys2Proof.Machine

open Sys2Proof.Safety

/-! ### What the invariant does not look at -/

/-- The port, the response and the counter of free values are no part of R28. -/
theorem inv_frame {s : State} (h : Inv s) (port : List HostEvent) (resp : Option Response) (free : Nat) :
    Inv { s with port := port, resp := resp, free := free } where
  legal := h.legal
  wf := h.wf
  below := h.below
  capRange := h.capRange
  errCause := h.errCause
  fltCause := h.fltCause
  live hf :=
    let hl := h.live hf
    ⟨hl.room, hl.written, hl.clean, hl.capForm⟩

theorem inv_respond {s : State} (h : Inv s) (code : RespCode) (data : List Byte) : Inv (respond code data s) :=
  inv_frame h s.port (some ⟨code, data⟩) s.free

/-! ### INIT and reset (R34, R160, R200) -/

/-- The writer INIT makes meets the invariant, whatever the state was: only R7 is needed of it. -/
theorem inv_initWriter {s : State} (h : s.params.Legal) : Inv (initWriter s) where
  legal := h
  wf := List.pairwise_singleton _ _
  below c hc := by
    obtain ⟨hpos, -, -⟩ := h
    obtain rfl : c = (0, 0x00#8) := List.mem_singleton.1 hc
    exact hpos
  capRange := ⟨h.1, h.2.1⟩
  errCause := rfl
  fltCause := by simp
  live _ :=
    { room := h.1
      written := fun i hi => by
        obtain rfl : i = 0 := by simpa using hi
        rfl
      clean := rfl
      capForm := by simp }

theorem inv_applyReset {s : State} (h : s.params.Legal) : Inv (applyReset s) :=
  inv_frame (inv_initWriter h) _ _ _

theorem inv_resetAfterCommand {s : State} (h : s.params.Legal) : Inv (resetAfterCommand s) :=
  inv_frame (inv_initWriter h) _ _ _

/-! ### Errors (R181, R182) -/

/-- An error other than RESOURCE_EXHAUSTED leaves the writer alone, and FLT is 0 beside the new CAUSE. -/
theorem inv_errorEntry_precise {s : State} {e : ErrorCode} (h : Inv s) (hf : s.flt = false)
    (he : e ≠ .resourceExhausted) : Inv (errorEntry e s) := by
  rw [errorEntry_precise e s he]
  exact
    { legal := h.legal
      wf := h.wf
      below := h.below
      capRange := h.capRange
      errCause := rfl
      fltCause := by simp [hf, he]
      live := fun hf =>
        let hl := h.live hf
        ⟨hl.room, hl.written, hl.clean, hl.capForm⟩ }

/-- After RESOURCE_EXHAUSTED the fault is latched, and the free values stay within R21's indices and R25's range
(log 3). -/
theorem inv_errorEntry_exhausted {s : State} (h : s.params.Legal) : Inv (errorEntry .resourceExhausted s) := by
  rw [errorEntry_exhausted]
  exact
    { legal := h
      wf := Memory.wf_below (Memory.wf_ofCells _) _
      below := fun _ hc => Memory.lt_of_mem_below hc
      capRange := by
        obtain ⟨hinit, hmax, -⟩ := h
        have : Config.exhaustedCap s.free % s.params.bufMaxBytes < s.params.bufMaxBytes :=
          Nat.mod_lt _ (by omega)
        simp only [unspecifyWriter_cap, unspecifyWriter_params]
        omega
      errCause := rfl
      fltCause := by simp
      live := fun hf => by cases hf }

/-! ### Commands and steps -/

/-- A writer that holds streams meets the invariant when FLT, ERR and CAUSE are as a state of it has them. -/
theorem inv_of_holds {s t : State} {str : List Byte} {pend : List Bool} (h : Inv s) (ht : Holds t str pend)
    (hflt : t.flt = s.flt) (herr : t.err = s.err) (hcause : t.cause = s.cause) : Inv t where
  legal := ht.legal
  wf := ht.wf
  below := ht.below
  capRange := ⟨by have := ht.room; omega, ht.capMax⟩
  errCause := by rw [herr, hcause, h.errCause]
  fltCause := by rw [hflt, hcause, h.fltCause]
  live _ := ht.live

theorem inv_of_answer {s t : State} {i : Instr} (h : Inv s) (ha : Answer s i t) : Inv t := by
  cases ha with
  | init => exact inv_respond (inv_initWriter h.legal) _ _
  | refused => exact inv_respond h _ _
  | rejected e hf _ he => exact inv_errorEntry_precise h hf he
  | wrote bits esc t _ _ _ heff hholds =>
    exact inv_of_holds h hholds (by rw [heff.frame]) (by rw [heff.frame]) (by rw [heff.frame])
  | exhausted bits esc u _ _ _ hadv => exact inv_errorEntry_exhausted (hadv.params ▸ h.legal)
  | exported => exact inv_respond h _ _

theorem inv_execIllegal {s : State} (h : Inv s) : Inv (execIllegal s) := by
  unfold execIllegal
  split
  · exact inv_respond h _ _
  · exact inv_errorEntry_precise h (by simpa using ‹¬ s.flt = true›) (by simp)

theorem inv_of_execCommand {c : Command} {s t : State} (h : Inv s) (ht : execCommand c s = .next t) : Inv t := by
  unfold execCommand at ht
  split at ht
  · exact inv_of_answer h (exec_cases h ht)
  · cases ht
    exact inv_execIllegal h

/-- Settles O44, by the event the step takes: a command's answer keeps the invariant, and reset restores it. -/
theorem stepKeepsInvariant : Obligations.StepKeepsInvariant := by
  intro s t h ht
  cases hp : s.port with
  | nil =>
    rw [step_of_idle hp] at ht; cases ht
    exact h
  | cons event rest =>
    have hrest : Inv { s with port := rest } := inv_frame h rest s.resp s.free
    cases event with
    | command c => exact inv_of_execCommand hrest (step_of_command hp ▸ ht)
    | reset =>
      rw [step_of_reset hp] at ht; cases ht
      exact inv_applyReset hrest.legal
    | commandThenReset c =>
      obtain ⟨u, hu, rfl⟩ := execThenReset_eq_next (step_of_commandThenReset hp ▸ ht)
      exact inv_resetAfterCommand (inv_of_execCommand hrest hu).legal

/-- Settles O43: the state after reset is the one INIT makes. -/
theorem resetMeetsInvariant : Obligations.ResetMeetsInvariant := fun p hp =>
  inv_initWriter (s := State.resetWith p) hp

/-- BUF after reset and after INIT holds a value at index 0 only (R34, log 2). -/
theorem read_initial (a : Nat) : Memory.read [(0, 0x00#8)] a = if a = 0 then some 0x00#8 else none := by
  simp [Memory.read, eq_comm]

/-- STATUS is the sum of its fields, so a writer with all of them 0 reads 0 (R161). -/
theorem status_eq_zero {s : State} (hbo : s.bo = 0) (hes : s.es = .noZeros) (hflt : s.flt = false)
    (herr : s.err = false) (hcause : s.cause = none) : status s = 0x00000000#32 := by
  rw [status, hbo, hes, hflt, herr, hcause]
  rfl

/-- Settles O9: the table of R34 is what reset and `initWriter` write, and its fields make STATUS 0. -/
theorem resetAndInitValues : Obligations.ResetAndInitValues := by
  constructor
  · intro p r
    have hbuf : r.buf = [(0, 0x00#8)] := rfl
    refine ⟨?_, fun a ha => ?_, rfl, rfl, rfl, rfl, rfl, rfl, rfl, status_eq_zero rfl rfl rfl rfl rfl, rfl⟩
    · rw [hbuf, read_initial, if_pos rfl]
    · rw [hbuf, read_initial, if_neg ha]
  · intro s
    exact ⟨respond .ok [] (initWriter s), rfl, rfl, status_eq_zero rfl rfl rfl rfl rfl, rfl⟩

end Sys2Proof.Machine
end

section
/-! SUPPORT. What a response records in ERR, CAUSE and FLT (R26, R27, R184 to R186), from every state: no invariant is
needed. `step_recorded` says it once for every command but INIT. -/

namespace Sys2Proof.Machine

open Sys2Proof.Safety

theorem WriterOnly.flt {s t : State} (h : WriterOnly s t) : t.flt = s.flt := by rw [h]
theorem WriterOnly.err {s t : State} (h : WriterOnly s t) : t.err = s.err := by rw [h]
theorem WriterOnly.cause {s t : State} (h : WriterOnly s t) : t.cause = s.cause := by rw [h]

/-- R70, first pair: the one CMD word that decodes to INIT. -/
theorem decode_eq_init_iff (c : Command) : decode c = some .init ↔ c.cmd = 0x00000001#32 := by
  constructor
  · intro h
    have hlt := c.cmd.isLt
    unfold decode at h
    split_ifs at h with hrsvd hfixed hfields hop <;> cases h
    simp only [cmdRsvd, cmdOp, cmdEsc, cmdWidth, wordField] at hrsvd hfields hop
    norm_num at hrsvd hfields hop
    apply BitVec.eq_of_toNat_eq
    show c.cmd.toNat = 1
    omega
  · intro h
    simp [decode, cmdRsvd, cmdOp, cmdEsc, cmdWidth, wordField, h]

/-- How the answer `t` of a command other than INIT stands to the error record of `s`. -/
inductive Recorded (s t : State) : Prop where
  /-- R180: OK records nothing. -/
  | ok (data : List Byte) : s.flt = false → t.resp = some ⟨.ok, data⟩ → t.flt = s.flt → t.err = s.err →
      t.cause = s.cause → Recorded s t
  /-- R184: an error is recorded, and RESOURCE_EXHAUSTED latches FLT (R26). -/
  | error (e : ErrorCode) : s.flt = false → t.resp = some ⟨.error e, []⟩ →
      t.flt = (s.flt || decide (e = .resourceExhausted)) → t.err = true → t.cause = some e → Recorded s t
  /-- R185: a refusal records nothing. -/
  | refused : s.flt = true → t.resp = some ⟨.refusedFaulted, []⟩ → t.flt = s.flt → t.err = s.err →
      t.cause = s.cause → Recorded s t

theorem recorded_refuseFaulted {s : State} (hf : s.flt = true) : Recorded s (refuseFaulted s) :=
  .refused hf rfl rfl rfl rfl

/-- Error entry records the error over whatever the procedure left of the writer. -/
theorem recorded_errorEntry {s u : State} (e : ErrorCode) (hf : s.flt = false) (hu : u.flt = s.flt) :
    Recorded s (errorEntry e u) :=
  .error e hf (by simp) (by simp [hu]) (by simp) (by simp)

theorem Ending.recorded {s t : State} {i : Instr} (h : Ending s i t) (hi : i ≠ .init) : Recorded s t := by
  cases h with
  | init hinit => exact absurd hinit hi
  | refused _ hf => exact recorded_refuseFaulted hf
  | rejected e _ hf _ => exact recorded_errorEntry e hf rfl
  | wrote u _ hf hu => exact .ok [] hf rfl hu.flt hu.err hu.cause
  | exhausted u _ hf hu => exact recorded_errorEntry _ hf hu.flt
  | exported o l data _ hf _ => exact .ok data hf rfl rfl rfl rfl

theorem recorded_execIllegal (s : State) : Recorded s (execIllegal s) := by
  unfold execIllegal
  split
  · exact recorded_refuseFaulted ‹_›
  · exact recorded_errorEntry _ (by simpa using ‹¬ s.flt = true›) rfl

theorem execCommand_recorded {c : Command} {s t : State} (h : execCommand c s = .next t)
    (hc : c.cmd ≠ 0x00000001#32) : Recorded s t := by
  unfold execCommand at h
  split at h
  next i hi => exact (exec_ending h).recorded fun hinit => hc ((decode_eq_init_iff c).1 (hinit ▸ hi))
  next => cases h; exact recorded_execIllegal s

/-- A step on a command other than INIT; consuming the command (R31) is no part of the record. -/
theorem step_recorded {s t : State} {c : Command} {rest : List HostEvent} (hp : s.port = .command c :: rest)
    (h : step s = .next t) (hc : c.cmd ≠ 0x00000001#32) : Recorded s t := by
  rw [step_of_command hp] at h
  cases execCommand_recorded h hc with
  | ok data hf hr hflt herr hcause => exact .ok data hf hr hflt herr hcause
  | error e hf hr hflt herr hcause => exact .error e hf hr hflt herr hcause
  | refused hf hr hflt herr hcause => exact .refused hf hr hflt herr hcause

/-- A step on the word of INIT (R160). -/
theorem step_of_init {s : State} {c : Command} {rest : List HostEvent} (hp : s.port = .command c :: rest)
    (hc : c.cmd = 0x00000001#32) : step s = .next (respond .ok [] (initWriter { s with port := rest })) := by
  rw [step_of_command hp, execCommand, (decode_eq_init_iff c).2 hc]
  rfl

/-- Settles O12: INIT clears the record, and `Recorded` is what every other command does with it. -/
theorem responseRecordsErrors : Obligations.ResponseRecordsErrors := by
  intro s t c rest hp h
  constructor
  · intro hc
    rw [step_of_init hp hc] at h; cases h
    exact ⟨rfl, rfl, rfl⟩
  · intro hc
    cases step_recorded hp h hc with
    | ok data hf hr hflt herr hcause =>
      exact ⟨_, hr, fun hf' => by simp [hf] at hf', hflt, herr, hcause⟩
    | error e hf hr hflt herr hcause =>
      exact ⟨_, hr, fun hf' => by simp [hf] at hf', hflt, herr, hcause, rfl⟩
    | refused hf hr hflt herr hcause => exact ⟨_, hr, fun _ => rfl, hflt, herr, hcause⟩

/-- Settles O16, by the event the step takes: an idle step keeps FLT, and with FLT = 1 a command other than INIT is
refused, which keeps it too. -/
theorem onlyInitOrResetLeaveFault : Obligations.OnlyInitOrResetLeaveFault := by
  intro s t hf h ht
  cases hp : s.port with
  | nil =>
    rw [step_of_idle hp] at h; cases h
    simp [hf] at ht
  | cons event rest =>
    refine ⟨rest, ?_⟩
    cases event with
    | reset => exact .inl rfl
    | commandThenReset c => exact .inr (.inl ⟨c, rfl⟩)
    | command c =>
      refine .inr (.inr ⟨c, rfl, ?_⟩)
      by_contra hc
      cases step_recorded hp h hc with
      | ok _ hf' => simp [hf] at hf'
      | error _ hf' => simp [hf] at hf'
      | refused _ _ hflt => simp [hflt, hf] at ht

end Sys2Proof.Machine
end

section
/-! SUPPORT. What a command other than INIT does to the writer when it does not exhaust the storage: nothing, or the
effect of the bits it writes. The settled statements on CAP, ES and the finalized bytes are read off this. -/

namespace Sys2Proof.Machine

open Sys2Proof.Safety

/-- A step on a command other than INIT that does not answer RESOURCE_EXHAUSTED leaves BUF, WC, ES and CAP alone, or it
is a write command with its whole effect. -/
theorem step_writer_cases {s t : State} {c : Command} {rest : List HostEvent} (hi : Inv s)
    (hp : s.port = .command c :: rest) (h : step s = .next t) (hc : c.cmd ≠ 0x00000001#32)
    (hr : t.resp ≠ some exhaustedResponse) :
    (t.buf = s.buf ∧ t.wc = s.wc ∧ t.es = s.es ∧ t.cap = s.cap) ∨
      ∃ i bits esc, decode c = some i ∧ writtenBits i = some (bits, esc) ∧
        WriteEffect { s with port := rest } t bits esc := by
  rw [step_of_command hp] at h
  unfold execCommand at h
  split at h
  next i hdec =>
    cases exec_cases (inv_frame hi rest s.resp s.free) h with
    | init hinit => exact absurd ((decode_eq_init_iff c).1 (hinit ▸ hdec)) hc
    | refused => exact .inl ⟨rfl, rfl, rfl, rfl⟩
    | rejected e _ _ he =>
      rw [errorEntry_precise e _ he]
      exact .inl ⟨rfl, rfl, rfl, rfl⟩
    | wrote bits esc t _ hw _ heff => exact .inr ⟨i, bits, esc, hdec, hw, heff⟩
    | exhausted => exact absurd (errorEntry_resp _ _) hr
    | exported => exact .inl ⟨rfl, rfl, rfl, rfl⟩
  next =>
    cases h
    unfold execIllegal
    split <;> exact .inl ⟨rfl, rfl, rfl, rfl⟩

/-- Unescaped finalizations leave ES alone (R123). -/
theorem emitEs_map_unescaped (es : EscState) (bs : List Byte) : emitEs es (bs.map fun b => (b, false)) = es := by
  induction bs with
  | nil => rfl
  | cons b bs ih => rw [List.map_cons, emitEs_unescaped, ih]

/-- Settles O24: INIT's CAP is R34's, and a write adds at most the one increment of its effect. -/
theorem capacityOnlyGrows : Obligations.CapacityOnlyGrows := by
  intro s t c rest hi hp h
  constructor
  · intro hc
    rw [step_of_init hp hc] at h; cases h
    rfl
  · intro hc hr
    obtain ⟨-, -, -, hcap⟩ | ⟨i, bits, esc, -, -, heff⟩ := step_writer_cases hi hp h hc hr
    · exact .inl hcap
    · rw [heff.cap]
      split
      · exact .inr rfl
      · exact .inl rfl

/-- Settles O29: a write's ES is the fold over its finalizations, which moves only if there is one and it is escaped. -/
theorem onlyEscapedFinalizationsMoveEs : Obligations.OnlyEscapedFinalizationsMoveEs := by
  intro s t c rest hi hp h hc hr hes
  obtain ⟨-, -, hkept, -⟩ | ⟨i, bits, esc, hdec, hw, heff⟩ := step_writer_cases hi hp h hc hr
  · exact absurd hkept hes
  · have hfold : t.es = emitEs s.es ((fullBytes (pendingBits s ++ bits)).map fun b => (b, esc)) := heff.es
    cases esc with
    | false => exact absurd (hfold.trans (emitEs_map_unescaped _ _)) hes
    | true =>
      refine ⟨i, bits, hdec, hw, fun hnone => hes ?_⟩
      rw [hfold, hnone]
      rfl

/-- Settles O38: a write's effect only adds to WC and writes from the old WC on. -/
theorem finalizedBytesImmutable : Obligations.FinalizedBytesImmutable := by
  intro s t c rest hi hp h hc hr
  obtain ⟨hbuf, hwc, -, -⟩ | ⟨i, bits, esc, -, -, heff⟩ := step_writer_cases hi hp h hc hr
  · exact ⟨hwc ▸ le_rfl, fun a _ => by rw [hbuf]⟩
  · exact ⟨heff.wc ▸ Nat.le_add_right _ _, fun a ha => heff.others a (.inl ha)⟩

end Sys2Proof.Machine
end

section
/-! SUPPORT. STATUS bit by bit (R32, R161), and the settled statement on its fields. -/

namespace Sys2Proof.Machine

/-- A field shifted to place `p` of a word: its bit `k - p` stands at `k`. -/
theorem getLsbD_setWidth_shiftLeft {w : Nat} (x : BitVec w) (p : Nat) {k : Nat} (hk : k < 32) :
    (x.setWidth 32 <<< p).getLsbD k = (decide (p ≤ k) && x.getLsbD (k - p)) := by
  have hkp : k - p < 32 := by omega
  simp only [BitVec.getLsbD_shiftLeft, BitVec.getLsbD_setWidth, hk, hkp, decide_true, Bool.true_and,
    ← Nat.not_lt, decide_not]

/-- A flag shifted to place `p` of a word stands at that place only. -/
theorem getLsbD_bitWord_shiftLeft (b : Bool) (p : Nat) {k : Nat} (hk : k < 32) :
    (bitWord b <<< p).getLsbD k = (decide (k = p) && b) := by
  cases b with
  | false => simp [bitWord]
  | true =>
    rw [Bool.eq_iff_iff]
    simp [bitWord, hk]
    omega

/-- Each bit of STATUS is the OR of the fields' bits at their places (R161). -/
theorem getLsbD_status (s : State) {k : Nat} (hk : k < 32) :
    (status s).getLsbD k =
      (s.bo.getLsbD k || (decide (4 ≤ k) && (escCode s.es).getLsbD (k - 4)) || (decide (k = 8) && s.flt) ||
        (decide (k = 9) && s.err) || (decide (12 ≤ k) && (causeCode s.cause).getLsbD (k - 12))) := by
  simp only [status, BitVec.getLsbD_or, getLsbD_bitWord_shiftLeft _ _ hk, getLsbD_setWidth_shiftLeft _ _ hk,
    BitVec.getLsbD_setWidth, hk, decide_true, Bool.true_and]

/-- A range of STATUS bits, read off `getLsbD_status` bit by bit. -/
theorem extractLsb'_status (s : State) {lo w : Nat} {x : BitVec w} (hlo : lo + w ≤ 32)
    (h : ∀ i < w, x.getLsbD i =
      (s.bo.getLsbD (lo + i) || (decide (4 ≤ lo + i) && (escCode s.es).getLsbD (lo + i - 4)) ||
        (decide (lo + i = 8) && s.flt) || (decide (lo + i = 9) && s.err) ||
        (decide (12 ≤ lo + i) && (causeCode s.cause).getLsbD (lo + i - 12)))) :
    (status s).extractLsb' lo w = x := by
  apply BitVec.eq_of_getLsbD_eq
  intro i hi
  rw [BitVec.getLsbD_extractLsb', getLsbD_status s (by omega), h i hi]
  simp [hi]

/-- Settles O40: each field is the range of bits that `getLsbD_status` gives it, and no field's bits lie in the rest. -/
theorem statusFields : Obligations.StatusFields := by
  intro s
  have hbo : (status s).extractLsb' 0 3 = s.bo :=
    extractLsb'_status s (by omega) fun i hi => by interval_cases i <;> simp
  have hes : (status s).extractLsb' 4 2 = escCode s.es :=
    extractLsb'_status s (by omega) fun i hi => by interval_cases i <;> simp
  have hcause : (status s).extractLsb' 12 4 = causeCode s.cause :=
    extractLsb'_status s (by omega) fun i hi => by interval_cases i <;> simp
  have h67 : (status s).extractLsb' 6 2 = 0 :=
    extractLsb'_status s (by omega) fun i hi => by interval_cases i <;> simp
  have h1011 : (status s).extractLsb' 10 2 = 0 :=
    extractLsb'_status s (by omega) fun i hi => by interval_cases i <;> simp
  have hhigh : (status s).extractLsb' 16 16 = 0 :=
    extractLsb'_status s (by omega) fun i hi => by
      simp (disch := omega) [BitVec.getLsbD_of_ge]
      omega
  have h3 : (status s).getLsbD 3 = false := (getLsbD_status s (by omega)).trans (by simp)
  have hflt : (status s).getLsbD 8 = s.flt := (getLsbD_status s (by omega)).trans (by simp)
  have herr : (status s).getLsbD 9 = s.err := (getLsbD_status s (by omega)).trans (by simp)
  refine ⟨hbo, h3, ?_, h67, hflt, herr, h1011, ?_, hhigh, rfl⟩
  · rw [hes]
    cases s.es <;> rfl
  · rw [hcause]
    rcases s.cause with _ | e
    · rfl
    · cases e <;> rfl

end Sys2Proof.Machine
end

section
/-! SUPPORT. Whole sequences of writes: the de-escaper of R126 inverts the escaper, the streams of one write follow
those of the write before, and the settled statement on a sequence of writes that all answer OK. -/

namespace Sys2Proof.Safety

open Sys2Proof.Machine

/-! ### The de-escaper (R120, R126) -/

/-- An insertion happens only from TwoOrMoreZeros, so the inserted byte is one the de-escaper drops. -/
theorem eq_twoOrMoreZeros_of_insert {es : EscState} {b : Byte} (h : (epNext es b).1 = true) :
    es = .twoOrMoreZeros := by
  cases es with
  | noZeros | oneZero => simp [epNext] at h
  | twoOrMoreZeros => rfl

/-- A byte 0x03 after two zeros is always preceded by an insertion, so the de-escaper drops no byte that is data. -/
theorem not_escapeByte_of_not_insert {es : EscState} {b : Byte} (h : (epNext es b).1 = false) :
    ¬ (es = .twoOrMoreZeros ∧ b = 0x03#8) := by
  rintro ⟨rfl, rfl⟩
  simp [epNext] at h

/-- An escaped byte that is not the dropped 0x03 passes the de-escaper, which sees it as the escaper did. -/
theorem unescape_of_kept {es : EscState} {b : Byte} (h : ¬ (es = .twoOrMoreZeros ∧ b = 0x03#8))
    (p : List (Byte × Bool)) : unescape es ((b, false) :: p) = b :: unescape (epNext es b).2 p := by
  cases p <;> simp only [unescape, if_neg h]

/-- Unescape gives back every byte the escaper was given, whichever bytes were escaped (R126). -/
theorem unescape_emitMarked (es : EscState) (bs : List (Byte × Bool)) :
    unescape es ((emitMarked es bs).1.map fun x => (x.1, x.2.1)) = bs.map (·.1) := by
  induction bs generalizing es with
  | nil => rfl
  | cons x bs ih =>
    obtain ⟨b, _ | _⟩ := x
    · simp only [emitMarked, List.map_cons, unescape, ih]
    · cases hins : (epNext es b).1 with
      | true =>
        obtain rfl := eq_twoOrMoreZeros_of_insert hins
        simp [emitMarked, hins, unescape, ih]
      | false => simp [emitMarked, hins, unescape_of_kept (not_escapeByte_of_not_insert hins), ih]

/-- The same for a stream that holds the emitted bytes, with the set U of R126 beside it. -/
theorem unescape_zip_emitBytes (es : EscState) (bs : List (Byte × Bool)) :
    unescape es ((emitBytes es bs).zip ((emitMarked es bs).1.map (·.2.1))) = bs.map (·.1) := by
  rw [emitBytes, List.zip_map']
  exact unescape_emitMarked es bs

/-! ### Sequences of writes -/

theorem logicalBytes_cons {pend : List Bool} {i : Instr} {is : List Instr} {bits : List Bool} {esc : Bool}
    (h : writtenBits i = some (bits, esc)) :
    logicalBytes pend (i :: is) =
      ((fullBytes (pend ++ bits)).map fun b => (b, esc)) ++ logicalBytes (restBits (pend ++ bits)) is := by
  simp only [logicalBytes, h]

/-- A sequence that runs OK starts with a command that answers OK, and the rest runs OK from there. -/
theorem runOk_cons {i : Instr} {is : List Instr} {s t : State} (h : runOk (i :: is) s = some t) :
    ∃ u, exec i s = .next u ∧ u.resp.map (·.code) = some .ok ∧ runOk is u = some t := by
  unfold runOk at h
  split at h
  next u hu =>
    split at h
    · exact ⟨u, hu, ‹_›, h⟩
    · cases h
  next => cases h

/-- A write that answers OK has the whole effect of its bits, and leaves a running writer of the invariant. -/
theorem exec_write_ok {s t : State} {i : Instr} {bits : List Bool} {esc : Bool} (hi : Inv s)
    (hw : writtenBits i = some (bits, esc)) (h : exec i s = .next t) (hr : t.resp.map (·.code) = some .ok) :
    WriteEffect s t bits esc ∧ pendingBits t = restBits (pendingBits s ++ bits) := by
  cases exec_cases hi h with
  | init hinit => simp [hinit, writtenBits] at hw
  | refused | rejected | exhausted => simp at hr
  | wrote bits' esc' t _ hw' _ heff hholds =>
    obtain ⟨rfl, rfl⟩ : bits = bits' ∧ esc = esc' := by simpa [hw] using hw'
    exact ⟨heff, hholds.pendingBits⟩
  | exported o l _ hexp _ => simp [hexp, writtenBits] at hw

/-- Writes that all answer OK append the escaped logical bytes, and ES folds EP_NEXT over them (R28 I4, I5). -/
theorem runOk_streams {is : List Instr} {s t : State} (hi : Inv s)
    (hw : ∀ i ∈ is, (writtenBits i).isSome = true) (h : runOk is s = some t) :
    finalizedBytes t = finalizedBytes s ++ emitBytes s.es (logicalBytes (pendingBits s) is) ∧
      t.es = emitEs s.es (logicalBytes (pendingBits s) is) := by
  induction is generalizing s with
  | nil =>
    obtain rfl : s = t := by simpa [runOk] using h
    simp [logicalBytes]
  | cons i is ih =>
    obtain ⟨⟨bits, esc⟩, hbits⟩ := Option.isSome_iff_exists.1 (hw i List.mem_cons_self)
    obtain ⟨u, hu, hok, hrun⟩ := runOk_cons h
    obtain ⟨heff, hpend⟩ := exec_write_ok hi hbits hu hok
    obtain ⟨hstream, hes⟩ := ih (inv_of_answer hi (exec_cases hi hu))
      (fun j hj => hw j (List.mem_cons_of_mem _ hj)) hrun
    rw [logicalBytes_cons hbits, emitBytes_append, emitEs_append, hstream, hes, hpend, heff.stream, heff.es,
      List.append_assoc]
    exact ⟨rfl, rfl⟩

/-- Settles O36: the streams of the sequence by induction on it, and the de-escaper on the bytes it appended. -/
theorem writtenStreamUnescapes : Obligations.WrittenStreamUnescapes := by
  intro is s t hi _ hw h logical
  obtain ⟨hstream, hes⟩ := runOk_streams hi hw h
  refine ⟨hstream, hes, ?_⟩
  rw [hstream, ← finalizedBytes_length s, List.drop_left]
  exact unescape_zip_emitBytes s.es logical

end Sys2Proof.Safety
end

section
/-! SUPPORT. That a machine of the invariant never stops (R47, R84, R163): the settled statement, by the event a step
takes. -/

namespace Sys2Proof.Machine

open Sys2Proof.Safety

/-- R163: every word on the port reaches an answer, decoded or Illegal. -/
theorem execCommand_answers {s : State} (hi : Inv s) (c : Command) : ∃ t, execCommand c s = .next t := by
  unfold execCommand
  cases decode c with
  | none => exact ⟨_, rfl⟩
  | some i =>
    obtain ⟨t, ht, -⟩ := exec_answers hi i
    exact ⟨t, ht⟩

/-- R200: a command that answers is followed by the reset requested during it. -/
theorem execThenReset_of_next {c : Command} {s t : State} (h : execCommand c s = .next t) :
    execThenReset c s = .next (resetAfterCommand t) := by
  simp only [execThenReset, h]

/-- Settles O45, by the event the step takes: an idle step and a reset answer from every state, a command from every
state of the invariant. -/
theorem stepAlwaysAnswers : Obligations.StepAlwaysAnswers := by
  intro s hi
  cases hp : s.port with
  | nil => exact ⟨s, step_of_idle hp⟩
  | cons event rest =>
    have hrest : Inv { s with port := rest } := inv_frame hi rest s.resp s.free
    cases event with
    | command c => rw [step_of_command hp]; exact execCommand_answers hrest c
    | reset => exact ⟨_, step_of_reset hp⟩
    | commandThenReset c =>
      obtain ⟨t, ht⟩ := execCommand_answers hrest c
      exact ⟨_, (step_of_commandThenReset hp).trans (execThenReset_of_next ht)⟩

end Sys2Proof.Machine
end

section
/-! SUPPORT. Two runs of one command from writers that hold the same stream: CAP, the parameters (R53) and what BUF holds
above the in-progress byte (R47, U1) reach nothing else. `exec_noNewDifference` says it once; the two settled statements
are read off it. -/

namespace Sys2Proof.Machine

open Sys2Proof.Safety

/-! ### One command, by what decides its answer -/

/-- A write command with operands it accepts completes when its bits fit, else it exhausts the storage (R82, R182). -/
theorem exec_write_cases {s t : State} {i : Instr} {bits : List Bool} {esc : Bool} (hi : Inv s) (hf : s.flt = false)
    (hw : writtenBits i = some (bits, esc)) (h : exec i s = .next t) :
    (Fits s bits esc ∧ WriteEffect s t bits esc ∧
      Holds t (finalizedBytes s ++ emitBytes s.es (finalizes s bits esc)) (restBits (pendingBits s ++ bits))) ∨
    (¬ Fits s bits esc ∧ ∃ u, Advances s u ∧ t = errorEntry .resourceExhausted u) := by
  cases exec_cases hi h with
  | init hinit => simp [hinit, writtenBits] at hw
  | refused _ hf' => simp [hf] at hf'
  | rejected e _ hr _ => simp [not_rejects_of_writtenBits hw] at hr
  | wrote bits' esc' t _ hw' hfit heff hholds =>
    obtain ⟨rfl, rfl⟩ : bits = bits' ∧ esc = esc' := by simpa [hw] using hw'
    exact .inl ⟨hfit, heff, hholds⟩
  | exhausted bits' esc' u _ hw' hfit hadv =>
    obtain ⟨rfl, rfl⟩ : bits = bits' ∧ esc = esc' := by simpa [hw] using hw'
    exact .inr ⟨hfit, u, hadv, rfl⟩
  | exported o l _ hexp _ => simp [hexp, writtenBits] at hw

/-- EXPORT of a finalized range answers OK with its bytes (R86). -/
theorem exec_exportBytes {s : State} {o l : Nat} (hi : Inv s) (hf : s.flt = false) (hle : o + l ≤ s.wc.toNat) :
    exec (.exportBytes o l) s = .next (respond .ok (((finalizedBytes s).drop o).take l) s) := by
  obtain ⟨t, ht, ha⟩ := exec_answers hi (.exportBytes o l)
  rw [ht]
  cases ha with
  | init hinit => cases hinit
  | refused _ hf' => simp [hf] at hf'
  | rejected e _ hr _ => simp [rejects, Nat.not_lt.2 hle] at hr
  | wrote _ _ _ _ hw => cases hw
  | exhausted _ _ _ _ hw => cases hw
  | exported o' l' _ hexp _ => cases hexp; rfl

/-- What RESOURCE_EXHAUSTED leaves is fixed by the parameters, the port and the counter of free values (log 4). -/
theorem errorEntry_exhausted_congr {u v : State} (hparams : v.params = u.params) (hport : v.port = u.port)
    (hfree : v.free = u.free) : errorEntry .resourceExhausted v = errorEntry .resourceExhausted u := by
  simp only [errorEntry_exhausted, unspecifyWriter, hparams, hport, hfree]

/-! ### Writers that hold the same stream -/

/-- `s'` differs from `s` only in CAP, the parameters and BUF above the in-progress byte. -/
structure SameStream (s s' : State) : Prop where
  frame : s' = { s with buf := s'.buf, cap := s'.cap, params := s'.params }
  reads : ∀ a ≤ s.wc.toNat, s'.buf.read a = s.buf.read a

section
variable {s s' : State} (h : SameStream s s')
include h

theorem SameStream.wc : s'.wc = s.wc := by rw [h.frame]
theorem SameStream.bo : s'.bo = s.bo := by rw [h.frame]
theorem SameStream.es : s'.es = s.es := by rw [h.frame]
theorem SameStream.flt : s'.flt = s.flt := by rw [h.frame]
theorem SameStream.port : s'.port = s.port := by rw [h.frame]
theorem SameStream.free : s'.free = s.free := by rw [h.frame]

theorem SameStream.finalizedBytes : finalizedBytes s' = finalizedBytes s := by
  rw [Safety.finalizedBytes, h.wc]
  exact List.map_congr_left fun a ha => by rw [h.reads a (List.mem_range.1 ha).le]

theorem SameStream.pendingBits : pendingBits s' = pendingBits s := by
  rw [Safety.pendingBits, inProgress, h.bo, h.wc, h.reads _ le_rfl]
  rfl

theorem SameStream.finalizes (bits : List Bool) (esc : Bool) : finalizes s' bits esc = finalizes s bits esc := by
  rw [Safety.finalizes, h.pendingBits]
  rfl

theorem SameStream.lastCursor (bits : List Bool) (esc : Bool) : lastCursor s' bits esc = lastCursor s bits esc := by
  rw [Safety.lastCursor, h.wc, h.es, h.finalizes]
  rfl

/-- Where a write stops fitting depends on the stream and the parameters alone (R85). -/
theorem SameStream.fits_iff (hp : s'.params = s.params) (bits : List Bool) (esc : Bool) :
    Fits s' bits esc ↔ Fits s bits esc := by
  rw [Fits, h.finalizes, h.lastCursor, hp]

theorem SameStream.rejects (i : Instr) : rejects s' i = rejects s i := by
  cases i with
  | init | writeFixed | writeUE | writeSE => rfl
  | exportBytes o l => simp only [Machine.rejects, h.wc]

end

/-! ### What the next states may differ in -/

/-- Runs from `s` and `s'` have led to `t` and `t'`, which differ only in CAP, the parameters and BUF above the
in-progress byte, and there only where `s` and `s'` do. -/
structure NoNewDifference (s s' t t' : State) : Prop where
  frame : t' = { t with buf := t'.buf, cap := t'.cap, params := s'.params }
  reads : ∀ a, a ≤ t.wc.toNat ∨ s'.buf.read a = s.buf.read a → t'.buf.read a = t.buf.read a
  cap : s'.cap = s.cap → s'.params = s.params → t'.cap = t.cap

theorem NoNewDifference.of_sameStream {s s' : State} (hs : SameStream s s') : NoNewDifference s s' s s' where
  frame := hs.frame
  reads a ha := ha.elim (hs.reads a) id
  cap h _ := h

/-- One response to both. -/
theorem NoNewDifference.respond {s s' t t' : State} (h : NoNewDifference s s' t t') (c : RespCode) (d : List Byte) :
    NoNewDifference s s' (respond c d t) (respond c d t') where
  frame := by rw [h.frame]; rfl
  reads := h.reads
  cap := h.cap

/-- One error recorded in both. -/
theorem NoNewDifference.recordError {s s' t t' : State} (h : NoNewDifference s s' t t') (e : ErrorCode) :
    NoNewDifference s s' (recordError e t) (recordError e t') where
  frame := by rw [h.frame]; rfl
  reads := h.reads
  cap := h.cap

/-- Writers that hold the same streams read alike up to the in-progress byte. -/
theorem Holds.read_eq {t t' : State} {str : List Byte} {pend : List Bool} (h : Holds t str pend)
    (h' : Holds t' str pend) {a : Nat} (ha : a ≤ str.length) : t'.buf.read a = t.buf.read a := by
  obtain hlt | rfl := ha.lt_or_eq
  · rw [h.stream a hlt, h'.stream a hlt]
  · rw [h.progress, h'.progress]

/-- One write that completes from both: its effect is a function of the stream, and CAP's of CAP too. -/
theorem NoNewDifference.of_writeEffect {s s' t t' : State} {bits : List Bool} {esc : Bool} (hs : SameStream s s')
    (h : WriteEffect s t bits esc) (h' : WriteEffect s' t' bits esc)
    (ht : Holds t (finalizedBytes s ++ emitBytes s.es (finalizes s bits esc)) (restBits (pendingBits s ++ bits)))
    (ht' : Holds t' (finalizedBytes s' ++ emitBytes s'.es (finalizes s' bits esc)) (restBits (pendingBits s' ++ bits))) :
    NoNewDifference s s' t t' := by
  rw [hs.finalizedBytes, hs.es, hs.finalizes, hs.pendingBits] at ht'
  have hwc : t'.wc = t.wc := BitVec.eq_of_toNat_eq (ht'.wc.trans ht.wc.symm)
  have hbo : t'.bo = t.bo := BitVec.eq_of_toNat_eq (ht'.bo.trans ht.bo.symm)
  have hes : t'.es = t.es := by rw [h'.es, h.es, hs.es, hs.finalizes]
  constructor
  · rw [h'.frame, h.frame, hwc, hbo, hes]
    rw [hs.frame]
  · intro a ha
    by_cases hle : a ≤ t.wc.toNat
    · exact ht.read_eq ht' (ht.wc ▸ hle)
    · rw [h.others a (by omega), h'.others a (by rw [hwc]; omega)]
      exact ha.resolve_left hle
  · intro hcap _
    rw [h'.cap, h.cap, hs.finalizes, hs.lastCursor, hcap]

/-- One command from both writers: no new difference, unless it exhausts the storage of one under other parameters. -/
theorem exec_noNewDifference {i : Instr} {s s' t t' : State} (hs : SameStream s s') (hi : Inv s) (hi' : Inv s')
    (h : exec i s = .next t) (h' : exec i s' = .next t')
    (hx : t.resp = some exhaustedResponse ∨ t'.resp = some exhaustedResponse → s'.params = s.params) :
    NoNewDifference s s' t t' := by
  cases exec_cases hi h with
  | init hinit =>
    subst hinit; cases h'
    refine ⟨?_, fun _ _ => rfl, fun _ hp => congrArg Config.Params.initCapacity hp⟩
    rw [hs.frame]; rfl
  | refused hinit hf =>
    rw [exec_faulted (hs.flt.trans hf) hinit] at h'; cases h'
    exact (NoNewDifference.of_sameStream hs).respond _ _
  | rejected e hf hr he =>
    obtain ⟨hexec, -⟩ := exec_rejects (hs.flt.trans hf) ((hs.rejects i).trans hr)
    rw [hexec] at h'; cases h'
    rw [errorEntry_precise e s he, errorEntry_precise e s' he]
    exact ((NoNewDifference.of_sameStream hs).recordError e).respond _ _
  | wrote bits esc t hf hw hfit heff hholds =>
    obtain ⟨-, heff', hholds'⟩ | ⟨hfit', u', -, rfl⟩ := exec_write_cases hi' (hs.flt.trans hf) hw h'
    · exact .of_writeEffect hs heff heff' hholds hholds'
    · exact absurd ((hs.fits_iff (hx (.inr (errorEntry_resp _ _))) bits esc).2 hfit) hfit'
  | exhausted bits esc u hf hw hfit hadv =>
    have hp := hx (.inl (errorEntry_resp _ _))
    obtain ⟨hfit', -, -⟩ | ⟨-, u', hadv', rfl⟩ := exec_write_cases hi' (hs.flt.trans hf) hw h'
    · exact absurd ((hs.fits_iff hp bits esc).1 hfit') hfit
    · have hparams : u'.params = u.params := by rw [hadv'.params, hadv.params, hp]
      rw [errorEntry_exhausted_congr hparams (by rw [hadv'.port, hadv.port, hs.port])
        (by rw [hadv'.free, hadv.free, hs.free])]
      refine ⟨?_, fun _ _ => rfl, fun _ _ => rfl⟩
      rw [hp, ← hadv.params]
      rfl
  | exported o l hf hexp hle =>
    subst hexp
    rw [exec_exportBytes hi' (hs.flt.trans hf) (hs.wc ▸ hle), hs.finalizedBytes] at h'; cases h'
    exact (NoNewDifference.of_sameStream hs).respond _ _

/-! ### The settled statements -/

/-- Settles O46: the two states hold the same BUF, so the next ones read alike everywhere, and a memory in canonical form
is what it reads. -/
theorem capacityUnobservable : Obligations.CapacityUnobservable := by
  intro i s t t' cap p hi hi' h h' hr hr'
  have hs : SameStream s { s with cap := cap, params := p } := ⟨rfl, fun _ _ => rfl⟩
  have hd := exec_noNewDifference hs hi hi' h h' fun hx => absurd hx (not_or.2 ⟨hr, hr'⟩)
  have hwf : t.buf.wf := (inv_of_answer hi (exec_cases hi h)).wf
  have hwf' : t'.buf.wf := (inv_of_answer hi' (exec_cases hi' h')).wf
  have hbuf : t'.buf = t.buf := Memory.ext_read hwf' hwf fun a => hd.reads a (.inr rfl)
  calc t' = { t with buf := t'.buf, cap := t'.cap, params := p } := hd.frame
    _ = { t with cap := t'.cap, params := p } := by rw [hbuf]

/-- Settles O47: under one CAP and one choice of the parameters no difference but BUF's above the in-progress byte is
left, whether the command exhausts the storage or not. -/
theorem unspecifiedBytesPlayNoPart : Obligations.UnspecifiedBytesPlayNoPart := by
  intro i s t t' buf hi hi' _ hreads h h'
  have hs : SameStream s { s with buf := buf } := ⟨rfl, hreads⟩
  have hd := exec_noNewDifference hs hi hi' h h' fun _ => rfl
  have hparams : t.params = s.params := (exec_ending h).params_port.1
  refine ⟨?_, fun a ha => hd.reads a (.inl ha)⟩
  calc t' = { t with buf := t'.buf, cap := t'.cap, params := s.params } := hd.frame
    _ = { t with buf := t'.buf } := by rw [hd.cap rfl rfl, ← hparams]

end Sys2Proof.Machine
end

section
/-! SUPPORT. A stream that only grows (R28 I4, R50): while no fault is latched, the finalized bytes before a command are
the first of those after it. The settled statement on a second EXPORT is read off this. -/

namespace Sys2Proof.Machine

open Sys2Proof.Safety

/-- A command other than INIT that leaves no fault latched found none, and only adds to the stream it found. -/
theorem Answer.finalizedBytes_prefix {s t : State} {i : Instr} (ha : Answer s i t) (hinit : i ≠ .init)
    (hf : t.flt = false) : s.flt = false ∧ finalizedBytes s <+: finalizedBytes t := by
  cases ha with
  | init hi => exact absurd hi hinit
  | refused _ hf' => simp [hf'] at hf
  | rejected e hf' _ he =>
    rw [errorEntry_precise e s he]
    exact ⟨hf', List.prefix_rfl⟩
  | wrote bits esc t hf' _ _ heff _ => exact ⟨hf', _, heff.stream.symm⟩
  | exhausted => simp at hf
  | exported o l hf' _ _ => exact ⟨hf', List.prefix_rfl⟩

/-- The same for a sequence of commands, which keeps the invariant. -/
theorem runAll_finalizedBytes_prefix {is : List Instr} {s t : State} (hi : Inv s) (hinit : ∀ i ∈ is, i ≠ .init)
    (h : runAll is s = some t) (hf : t.flt = false) :
    s.flt = false ∧ Inv t ∧ finalizedBytes s <+: finalizedBytes t := by
  induction is generalizing s with
  | nil =>
    obtain rfl : s = t := by simpa [runAll] using h
    exact ⟨hf, hi, List.prefix_rfl⟩
  | cons i is ih =>
    obtain ⟨u, hu, ha⟩ := exec_answers hi i
    simp only [runAll, hu] at h
    obtain ⟨hfu, hit, hut⟩ := ih (inv_of_answer hi ha) (fun j hj => hinit j (List.mem_cons_of_mem _ hj)) h
    obtain ⟨hfs, hsu⟩ := ha.finalizedBytes_prefix (hinit i List.mem_cons_self) hfu
    exact ⟨hfs, hit, hsu.trans hut⟩

/-- A range of a list is the same range of every list that starts with it. -/
theorem take_drop_of_prefix {xs ys : List Byte} {o l : Nat} (h : xs <+: ys) (hle : o + l ≤ xs.length) :
    (ys.drop o).take l = (xs.drop o).take l := by
  obtain ⟨zs, rfl⟩ := h
  rw [List.drop_append_of_le_length (by omega), List.take_append_of_le_length (by rw [List.length_drop]; omega)]

/-- Settles O39: the exported range lies in the stream before the commands, which the stream after them extends. -/
theorem exportedBytesStayValid : Obligations.ExportedBytesStayValid := by
  intro is s t o l hi hf hle hinit h hft
  obtain ⟨-, hit, hpre⟩ := runAll_finalizedBytes_prefix hi hinit h hft
  have hlen : o + l ≤ (finalizedBytes s).length := (finalizedBytes_length s).symm ▸ hle
  have hle' : o + l ≤ t.wc.toNat := finalizedBytes_length t ▸ hlen.trans hpre.length_le
  exact ⟨_, _, _, exec_exportBytes hi hf hle, exec_exportBytes hit hft hle', rfl, by
    rw [respond_resp, take_drop_of_prefix hpre hlen]⟩

end Sys2Proof.Machine
end

section
/-! SUPPORT. The decoder and the encoder (R61 to R72). `eq_cmdWord_iff` says which CMD words are assembled from fields, and
`decode_eq_some_iff` says once which words decode to which instruction; the settled statements are read off these two. -/

namespace Sys2Proof

/-! ### The fields of a CMD word (R61) -/

/-- A field of the spec, `v[hi:lo]`, is the number of its bit vector. -/
theorem wordField_eq_toNat_extractLsb' (w : Word) (hi lo : Nat) :
    wordField w hi lo = (w.extractLsb' lo (hi - lo + 1)).toNat := by
  rw [wordField, BitVec.extractLsb'_toNat, Nat.shiftRight_eq_div_pow]

theorem cmdOp_eq (w : Word) : cmdOp w = (w.extractLsb' 0 4).toNat := wordField_eq_toNat_extractLsb' w 3 0
theorem cmdWidth_eq (w : Word) : cmdWidth w = (w.extractLsb' 5 6).toNat := wordField_eq_toNat_extractLsb' w 10 5
theorem cmdRsvd_eq (w : Word) : cmdRsvd w = (w.extractLsb' 11 21).toNat := wordField_eq_toNat_extractLsb' w 31 11

theorem cmdEsc_eq (w : Word) : cmdEsc w = w.getLsbD 4 := by
  simp [cmdEsc, wordField, BitVec.getLsbD, Nat.testBit_eq_decide_div_mod_eq, beq_eq_decide]

theorem fitsWidth_cmdWidth (w : Word) : fitsWidth (cmdWidth w) := Nat.mod_lt _ (by norm_num)

/-- R61, R72: a CMD word is assembled from its fields exactly when RSVD is 0. -/
theorem eq_cmdWord_iff {w : Word} {op width : Nat} {esc : Bool} (hop : op < 2 ^ 4) (hwidth : fitsWidth width) :
    w = cmdWord op esc width ↔ cmdRsvd w = 0 ∧ cmdOp w = op ∧ cmdEsc w = esc ∧ cmdWidth w = width := by
  have hw := w.isLt
  rw [← BitVec.toNat_inj]
  simp only [cmdRsvd, cmdOp, cmdEsc, cmdWidth, wordField, cmdWord, BitVec.toNat_ofNat]
  cases esc <;> norm_num at * <;> omega

/-- The same for a word whose ESC and WIDTH are 0: it is its OP. -/
theorem eq_cmdWord_of_op {w : Word} {op : Nat} (hrsvd : cmdRsvd w = 0) (hop : cmdOp w = op)
    (hfields : cmdEsc w = false ∧ cmdWidth w = 0) : w = cmdWord op false 0 :=
  (eq_cmdWord_iff (hop ▸ Nat.mod_lt _ (by norm_num)) (by norm_num)).2 ⟨hrsvd, hop, hfields⟩

/-! ### The operands (R10, R65, R66) -/

theorem zext_ofNat {n : Nat} (h : fitsWord n) : zext (BitVec.ofNat 32 n) = n := Nat.mod_eq_of_lt h

/-- R65, R72: WRITE_SE's operand word holds the value mod 2^32, and R10 reads the value back. -/
theorem sint_ofNat_emod {v : Int} (h : fitsSigned v) : sint (BitVec.ofNat 32 (v % 2 ^ 32).toNat) = v := by
  obtain ⟨hlo, hhi⟩ := h
  rw [sint, BitVec.toNat_ofNat]
  norm_num at *
  split <;> omega

theorem fitsSigned_sint (w : Word) : fitsSigned (sint w) := by
  have hw := w.isLt
  unfold sint fitsSigned
  split <;> omega

theorem sint_eq_toInt (w : Word) : sint w = w.toInt := by
  rw [sint, BitVec.toInt_eq_toNat_cond]
  split_ifs <;> omega

/-! ### Decoding (R70) -/

/-- The words that stand for an instruction: its CMD word, and in ARG0 and ARG1 the operands that R65 and R66 read. -/
inductive Decoded (c : Command) : Instr → Prop where
  | init : c.cmd = cmdWord 0x1 false 0 → Decoded c .init
  | writeFixed {v w : Nat} {e : Bool} : c.cmd = cmdWord 0x2 e w → fitsWidth w → v = zext c.arg0 →
      Decoded c (.writeFixed v w e)
  | writeUE {v : Nat} : c.cmd = cmdWord 0x3 false 0 → v = zext c.arg0 → Decoded c (.writeUE v)
  | writeSE {v : Int} : c.cmd = cmdWord 0x4 false 0 → v = sint c.arg0 → Decoded c (.writeSE v)
  | exportBytes {o l : Nat} : c.cmd = cmdWord 0x5 false 0 → o = zext c.arg0 → l = zext c.arg1 →
      Decoded c (.exportBytes o l)

theorem Decoded.of_decode {c : Command} {i : Instr} (h : decode c = some i) : Decoded c i := by
  unfold decode at h
  split_ifs at h with hrsvd hfixed hfields hop hop hop hop <;> cases h
  all_goals replace hrsvd : cmdRsvd c.cmd = 0 := not_not.1 hrsvd
  · have hwidth := fitsWidth_cmdWidth c.cmd
    exact .writeFixed ((eq_cmdWord_iff (by norm_num) hwidth).2 ⟨hrsvd, hfixed, rfl, rfl⟩) hwidth rfl
  all_goals replace hfields : cmdEsc c.cmd = false ∧ cmdWidth c.cmd = 0 := by simpa using hfields
  · exact .init (eq_cmdWord_of_op hrsvd hop hfields)
  · exact .writeUE (eq_cmdWord_of_op hrsvd hop hfields) rfl
  · exact .writeSE (eq_cmdWord_of_op hrsvd hop hfields) rfl
  · exact .exportBytes (eq_cmdWord_of_op hrsvd hop hfields) rfl rfl

theorem Decoded.decode_eq {c : Command} {i : Instr} (h : Decoded c i) : decode c = some i := by
  cases h with
  | writeFixed hcmd hwidth hv =>
    obtain ⟨hrsvd, hop, hesc, hw⟩ := (eq_cmdWord_iff (by norm_num) hwidth).1 hcmd
    simp [decode, hrsvd, hop, hesc, hw, hv]
  | init hcmd | writeUE hcmd | writeSE hcmd | exportBytes hcmd =>
    obtain ⟨hrsvd, hop, hesc, hw⟩ := (eq_cmdWord_iff (by norm_num) (by norm_num)).1 hcmd
    clear hcmd
    simp [decode, *]

/-- R70: the words that decode to an instruction are the words that stand for it. -/
theorem decode_eq_some_iff {c : Command} {i : Instr} : decode c = some i ↔ Decoded c i :=
  ⟨.of_decode, Decoded.decode_eq⟩

theorem decode_eq_none_iff {c : Command} : decode c = none ↔ ∀ i, ¬ Decoded c i := by
  simp only [Option.eq_none_iff_forall_ne_some, ne_eq, decode_eq_some_iff]

theorem decoded_encode {i : Instr} (h : i.wellFormed = true) : Decoded (encode i) i := by
  cases i with
  | init => exact .init rfl
  | writeFixed v w e =>
    obtain ⟨hv, hw⟩ : fitsWord v ∧ fitsWidth w := by simpa [Instr.wellFormed] using h
    exact .writeFixed rfl hw (zext_ofNat hv).symm
  | writeUE v => exact .writeUE rfl (zext_ofNat (of_decide_eq_true h)).symm
  | writeSE v => exact .writeSE rfl (sint_ofNat_emod (of_decide_eq_true h)).symm
  | exportBytes o l =>
    obtain ⟨ho, hl⟩ : fitsWord o ∧ fitsWord l := by simpa [Instr.wellFormed] using h
    exact .exportBytes rfl (zext_ofNat ho).symm (zext_ofNat hl).symm

theorem Decoded.wellFormed {c : Command} {i : Instr} (h : Decoded c i) : i.wellFormed = true := by
  have harg0 : fitsWord (zext c.arg0) := c.arg0.isLt
  have harg1 : fitsWord (zext c.arg1) := c.arg1.isLt
  cases h with
  | init => rfl
  | writeFixed _ hw hv => exact Bool.and_intro (decide_eq_true (hv ▸ harg0)) (decide_eq_true hw)
  | writeUE _ hv => exact decide_eq_true (hv ▸ harg0)
  | writeSE _ hv => exact decide_eq_true (hv ▸ fitsSigned_sint c.arg0)
  | exportBytes _ ho hl => exact Bool.and_intro (decide_eq_true (ho ▸ harg0)) (decide_eq_true (hl ▸ harg1))

theorem Decoded.cmd_encode {c : Command} {i : Instr} (h : Decoded c i) : (encode i).cmd = c.cmd := by
  cases h with
  | init hcmd | writeFixed hcmd | writeUE hcmd | writeSE hcmd | exportBytes hcmd => exact hcmd.symm

/-- Settles O1: the encoded words stand for the instruction when its literals fit. -/
theorem decodeEncodeRoundTrip : Obligations.DecodeEncodeRoundTrip := fun _ hwf =>
  decode_eq_some_iff.2 (decoded_encode hwf)

/-- Settles O3: what the words stand for fits the fields, so O1 decodes it back. -/
theorem decodedInstrReencodes : Obligations.DecodedInstrReencodes := by
  intro c i h
  have hdec := Decoded.of_decode h
  exact ⟨hdec.wellFormed, hdec.cmd_encode, decodeEncodeRoundTrip i hdec.wellFormed⟩

/-! ### The match/mask pairs (R70) -/

/-- The mask of WRITE_FIXED hides ESC and WIDTH. -/
theorem cmdWord_writeFixed_and_mask (e : Bool) : ∀ w < 2 ^ 6, cmdWord 0x2 e w &&& 0xFFFFF80F#32 = 0x00000002#32 := by
  cases e <;> decide

/-- The pair of WRITE_FIXED in fields: its mask shows RSVD and OP. -/
theorem and_writeFixedMask_eq_iff (w : Word) :
    w &&& 0xFFFFF80F#32 = 0x00000002#32 ↔ cmdRsvd w = 0 ∧ cmdOp w = 0x2 := by
  constructor
  · intro h
    have hrsvd : (w &&& 0xFFFFF80F#32).extractLsb' 11 21 = w.extractLsb' 11 21 := by
      rw [BitVec.extractLsb'_and]
      exact BitVec.and_allOnes
    have hop : (w &&& 0xFFFFF80F#32).extractLsb' 0 4 = w.extractLsb' 0 4 := by
      rw [BitVec.extractLsb'_and]
      exact BitVec.and_allOnes
    rw [cmdRsvd_eq, cmdOp_eq, ← hrsvd, ← hop, h]
    decide
  · rintro ⟨hrsvd, hop⟩
    have hw := fitsWidth_cmdWidth w
    have hcmd : w = cmdWord 0x2 (cmdEsc w) (cmdWidth w) := (eq_cmdWord_iff (by norm_num) hw).2 ⟨hrsvd, hop, rfl, rfl⟩
    rw [hcmd]
    exact cmdWord_writeFixed_and_mask _ _ hw

theorem decoded_writeFixed_iff {c : Command} {v w : Nat} {e : Bool} :
    Decoded c (.writeFixed v w e) ↔
      c.cmd &&& 0xFFFFF80F#32 = 0x00000002#32 ∧ v = c.arg0.toNat ∧ w = (c.cmd.extractLsb' 5 6).toNat ∧
        e = c.cmd.getLsbD 4 := by
  rw [and_writeFixedMask_eq_iff, ← cmdWidth_eq, ← cmdEsc_eq]
  constructor
  · rintro (_ | ⟨hcmd, hw, hv⟩)
    obtain ⟨hrsvd, hop, hesc, hwidth⟩ := (eq_cmdWord_iff (by norm_num) hw).1 hcmd
    exact ⟨⟨hrsvd, hop⟩, hv, hwidth.symm, hesc.symm⟩
  · rintro ⟨⟨hrsvd, hop⟩, hv, rfl, rfl⟩
    have hw := fitsWidth_cmdWidth c.cmd
    exact .writeFixed ((eq_cmdWord_iff (by norm_num) hw).2 ⟨hrsvd, hop, rfl, rfl⟩) hw hv

theorem decoded_init_iff {c : Command} : Decoded c .init ↔ c.cmd = 0x00000001#32 :=
  decode_eq_some_iff.symm.trans (Machine.decode_eq_init_iff c)

theorem decoded_writeUE_iff {c : Command} {v : Nat} :
    Decoded c (.writeUE v) ↔ c.cmd = 0x00000003#32 ∧ v = c.arg0.toNat :=
  ⟨fun (.writeUE hcmd hv) => ⟨hcmd, hv⟩, fun ⟨hcmd, hv⟩ => .writeUE hcmd hv⟩

theorem decoded_writeSE_iff {c : Command} {v : Int} :
    Decoded c (.writeSE v) ↔ c.cmd = 0x00000004#32 ∧ v = c.arg0.toInt := by
  rw [← sint_eq_toInt]
  exact ⟨fun (.writeSE hcmd hv) => ⟨hcmd, hv⟩, fun ⟨hcmd, hv⟩ => .writeSE hcmd hv⟩

theorem decoded_exportBytes_iff {c : Command} {o l : Nat} :
    Decoded c (.exportBytes o l) ↔ c.cmd = 0x00000005#32 ∧ o = c.arg0.toNat ∧ l = c.arg1.toNat :=
  ⟨fun (.exportBytes hcmd ho hl) => ⟨hcmd, ho, hl⟩, fun ⟨hcmd, ho, hl⟩ => .exportBytes hcmd ho hl⟩

/-- A word is Illegal when it matches none of the five pairs. -/
theorem decode_eq_none_iff_cmd {c : Command} :
    decode c = none ↔ c.cmd ≠ 0x00000001#32 ∧ c.cmd &&& 0xFFFFF80F#32 ≠ 0x00000002#32 ∧ c.cmd ≠ 0x00000003#32 ∧
      c.cmd ≠ 0x00000004#32 ∧ c.cmd ≠ 0x00000005#32 := by
  rw [decode_eq_none_iff]
  constructor
  · intro h
    exact ⟨fun hcmd => h _ (decoded_init_iff.2 hcmd), fun hcmd => h _ (decoded_writeFixed_iff.2 ⟨hcmd, rfl, rfl, rfl⟩),
      fun hcmd => h _ (decoded_writeUE_iff.2 ⟨hcmd, rfl⟩), fun hcmd => h _ (decoded_writeSE_iff.2 ⟨hcmd, rfl⟩),
      fun hcmd => h _ (decoded_exportBytes_iff.2 ⟨hcmd, rfl, rfl⟩)⟩
  · rintro ⟨hinit, hfixed, hue, hse, hexport⟩ i hdec
    cases i with
    | init => exact hinit (decoded_init_iff.1 hdec)
    | writeFixed => exact hfixed (decoded_writeFixed_iff.1 hdec).1
    | writeUE => exact hue (decoded_writeUE_iff.1 hdec).1
    | writeSE => exact hse (decoded_writeSE_iff.1 hdec).1
    | exportBytes => exact hexport (decoded_exportBytes_iff.1 hdec).1

/-- Settles O2: for each command, the words that stand for it are the words that match its pair. -/
theorem decodeMatchesMaskPairs : Obligations.DecodeMatchesMaskPairs := fun c =>
  ⟨Machine.decode_eq_init_iff c, fun _ _ _ => decode_eq_some_iff.trans decoded_writeFixed_iff,
    fun _ => decode_eq_some_iff.trans decoded_writeUE_iff, fun _ => decode_eq_some_iff.trans decoded_writeSE_iff,
    fun _ _ => decode_eq_some_iff.trans decoded_exportBytes_iff, decode_eq_none_iff_cmd⟩

/-- Settles O4: each word is closed, so the decoder evaluates on it. -/
theorem writtenOutWordsDecode : Obligations.WrittenOutWordsDecode := by
  unfold Obligations.WrittenOutWordsDecode
  decide

/-! ### Malformed words (R67, R68) -/

/-- R61: a word that stands for an instruction has RSVD 0, an OP of 1 to 5, and ESC and WIDTH only if it is WRITE_FIXED. -/
theorem Decoded.fields {c : Command} {i : Instr} (h : Decoded c i) :
    cmdRsvd c.cmd = 0 ∧ 1 ≤ cmdOp c.cmd ∧ cmdOp c.cmd ≤ 5 ∧
      (cmdOp c.cmd ≠ 2 → cmdEsc c.cmd = false ∧ cmdWidth c.cmd = 0) := by
  cases h with
  | writeFixed hcmd hwidth =>
    obtain ⟨hrsvd, hop, -, -⟩ := (eq_cmdWord_iff (by norm_num) hwidth).1 hcmd
    simp [hrsvd, hop]
  | init hcmd | writeUE hcmd | writeSE hcmd | exportBytes hcmd =>
    obtain ⟨hrsvd, hop, hesc, hw⟩ := (eq_cmdWord_iff (by norm_num) (by norm_num)).1 hcmd
    simp [hrsvd, hop, hesc, hw]

/-- R67, R68: each way of being malformed contradicts the fields of a word that stands for an instruction. -/
theorem decode_eq_none_of_malformed {c : Command}
    (h : c.cmd.extractLsb' 11 21 ≠ 0#21 ∨
      (c.cmd.extractLsb' 0 4 ≠ 2#4 ∧ (c.cmd.getLsbD 4 = true ∨ c.cmd.extractLsb' 5 6 ≠ 0#6)) ∨
      c.cmd.extractLsb' 0 4 = 0#4 ∨ 6 ≤ (c.cmd.extractLsb' 0 4).toNat) : decode c = none := by
  rw [decode_eq_none_iff]
  intro i hdec
  obtain ⟨hrsvd, hpos, hle, hplain⟩ := hdec.fields
  rw [cmdOp_eq] at hpos hle hplain
  rw [cmdRsvd_eq] at hrsvd
  rw [cmdEsc_eq, cmdWidth_eq] at hplain
  rcases h with h | ⟨hop, hesc | hwidth⟩ | h | h
  · exact h (BitVec.eq_of_toNat_eq hrsvd)
  · obtain ⟨hesc', -⟩ := hplain fun h => hop (BitVec.eq_of_toNat_eq h)
    exact Bool.false_ne_true (hesc'.symm.trans hesc)
  · obtain ⟨-, hwidth'⟩ := hplain fun h => hop (BitVec.eq_of_toNat_eq h)
    exact hwidth (BitVec.eq_of_toNat_eq hwidth')
  · simp [h] at hpos
  · omega

end Sys2Proof

namespace Sys2Proof.Machine

/-- R68: what an Illegal word does to the state. -/
theorem execIllegal_eq (s : State) :
    execIllegal s =
      if s.flt = true then { s with resp := some ⟨.refusedFaulted, []⟩ }
      else { s with err := true, cause := some .illegalCommand, resp := some ⟨.error .illegalCommand, []⟩ } := rfl

/-- Settles O6: a malformed word decodes to nothing, and the step is then what an Illegal word does. -/
theorem malformedWordsAreIllegal : Obligations.MalformedWordsAreIllegal := by
  intro s c rest hp hmalformed
  rw [step_of_command hp, execCommand, decode_eq_none_of_malformed hmalformed]
  exact congrArg _ (execIllegal_eq _)

end Sys2Proof.Machine
end

section
/-! SUPPORT. The one response of a command (R71), from every state: no invariant is needed. `execCommand_response` says
which commands answer with data. -/

namespace Sys2Proof.Machine

theorem toNat_respCode_le (code : RespCode) : (respCode code).toNat ≤ 6 := by
  cases code with
  | ok | refusedFaulted => decide
  | error e => cases e <;> decide

/-- What EXPORT's copy returns when it completes: the bytes in increasing index order (R86). -/
theorem read_of_memReadRange_eq_ok {off n : Nat} {s : State} {bs : List Byte} (h : memReadRange off n s = .ok bs) :
    bs.length = n ∧ ∀ k < n, s.buf.read (off + k) = bs[k]? := by
  induction n generalizing off bs with
  | zero => cases h; simp
  | succ n ih =>
    obtain ⟨b, hb, h⟩ := Res.bind_eq_ok.1 h
    obtain ⟨bs', hbs, h⟩ := Res.bind_eq_ok.1 h
    cases h
    obtain ⟨hlen, hread⟩ := ih hbs
    refine ⟨by simp [hlen], fun k hk => ?_⟩
    cases k with
    | zero => exact (memRead_eq_ok.1 hb).2
    | succ k =>
      rw [List.getElem?_cons_succ, ← hread k (by omega)]
      congr 1
      omega

/-- The response with which a command on `c` ends: without data, or OK with the bytes EXPORT has copied. -/
inductive Responds (s : State) (c : Command) : Response → Prop where
  | plain (code : RespCode) : Responds s c ⟨code, []⟩
  | exported {o l : Nat} {data : List Byte} : decode c = some (.exportBytes o l) → memReadRange o l s = .ok data →
      Responds s c ⟨.ok, data⟩

theorem Ending.responds {s t : State} {i : Instr} {c : Command} (h : Ending s i t) (hi : decode c = some i) :
    ∃ r, t.resp = some r ∧ Responds s c r := by
  cases h with
  | init | refused | wrote => exact ⟨_, rfl, .plain _⟩
  | rejected | exhausted => exact ⟨_, errorEntry_resp _ _, .plain _⟩
  | exported o l data hexp _ hdata => exact ⟨_, rfl, .exported (hexp ▸ hi) hdata⟩

theorem execCommand_responds {c : Command} {s t : State} (h : execCommand c s = .next t) :
    ∃ r, t.resp = some r ∧ Responds s c r := by
  unfold execCommand at h
  split at h
  next i hi => exact (exec_ending h).responds hi
  next =>
    cases h
    rw [execIllegal_eq]
    split <;> exact ⟨_, rfl, .plain _⟩

/-- Settles O15: of the two kinds of response only EXPORT's holds data, and its data is the range it copied. -/
theorem everyCommandAnswersOnce : Obligations.EveryCommandAnswersOnce := by
  intro s t c rest hp h
  obtain ⟨r, hr, hresponds⟩ := execCommand_responds (step_of_command hp ▸ h)
  refine ⟨r, hr, toNat_respCode_le r.code, fun hne => ?_⟩
  cases hresponds with
  | plain code => exact absurd rfl hne
  | @exported o l data hdec hdata =>
    obtain ⟨hlen, hread⟩ := read_of_memReadRange_eq_ok hdata
    exact ⟨rfl, o, l, hdec, hlen ▸ List.length_pos_iff.2 hne, hlen, hread⟩

end Sys2Proof.Machine
end

section
/-! SUPPORT. The growable buffer (R80 to R86): the operands a command rejects, the exhaustion point of a finalization and
its three stores, and EXPORT's copy. `finalizeByte_wc` says once what a finalization does from a writer that meets
R28; the statements on a single finalization are read off it. -/

namespace Sys2Proof.Machine

open Sys2Proof.Safety

/-! ### Operand checks and EXPORT (R86, R103, R141, R143) -/

/-- R181: a rejected command answers with the state it found but for ERR, CAUSE and the response. -/
theorem exec_of_rejects {s : State} {i : Instr} {e : ErrorCode} (hf : s.flt = false) (h : rejects s i = some e) :
    exec i s = .next { s with err := true, cause := some e, resp := some ⟨.error e, []⟩ } := by
  obtain ⟨hexec, he⟩ := exec_rejects hf h
  rw [hexec, errorEntry_precise e s he]

/-- Settles O14: each clause names operands that `rejects` sorts out. -/
theorem operandChecksReject : Obligations.OperandChecksReject := by
  intro s hf
  refine ⟨fun v w esc hw => ?_, fun m hm => ?_, fun v hv => ?_, fun o l hr => ?_⟩
  · exact exec_of_rejects hf (if_pos (by omega))
  · exact exec_of_rejects hf (if_pos hm)
  · exact exec_of_rejects hf (if_pos (by omega))
  · exact exec_of_rejects hf (if_pos hr)

/-- Settles O37: the answer `exec_exportBytes` gives is the state before with the response set. -/
theorem exportReturnsFinalizedBytes : Obligations.ExportReturnsFinalizedBytes :=
  fun _ _ _ hi hf hle => exec_exportBytes hi hf hle

/-! ### Writes past CAP_MAX (R82, R182) -/

/-- Settles O21: of the two ends of a write the completing one needs `Fits`; error entry latches the fault. -/
theorem writesPastCapacityExhaust : Obligations.WritesPastCapacityExhaust := by
  intro s i bits esc hi hf hw hfit
  obtain ⟨t, ht, -⟩ := exec_answers hi i
  obtain ⟨hfit', -⟩ | ⟨-, u, hadv, rfl⟩ := exec_write_cases hi hf hw ht
  · exact absurd hfit' hfit
  · refine ⟨_, ht, ?_⟩
    simp [hadv.params, hadv.port]

/-! ### CAP_MAX and Grow (R80, R81, R84, R85) -/

/-- No further increment fits below BUF_MAX_BYTES. -/
theorem lt_capMax_add {p : Config.Params} (h : p.Legal) : p.bufMaxBytes < capMax p + 1024 := by
  obtain ⟨-, hle, -⟩ := h
  unfold capMax
  omega

/-- R81, R84: Grow changes CAP only, and leaves room for the three bytes of a finalization. -/
theorem grow_leaves_room {s t : State} (hroom : s.wc.toNat + 1 ≤ s.cap) (h : grow s = .ok t) :
    t.wc.toNat + 5 ≤ t.cap ∧ t = { s with cap := t.cap } := by
  rw [grow_def] at h
  split_ifs at h with hlow hmax <;> cases h
  · refine ⟨?_, rfl⟩
    dsimp only
    omega
  · exact ⟨by omega, rfl⟩

/-! ### One finalization (R84, R85, R101) -/

/-- The writer with its in-progress byte set back to no bits. -/
theorem Holds.cleared {s : State} {str : List Byte} {pend : List Bool} (h : Holds s str pend) :
    Holds { s with bo := 0, buf := s.buf.write str.length 0x00#8 } str [] where
  legal := h.legal
  wf := Memory.wf_write h.wf _ _
  below c hc := by
    obtain rfl | hc := Memory.mem_write hc
    · exact h.room
    · exact h.below c hc
  capMax := h.capMax
  capForm := h.capForm
  wc := h.wc
  bo := rfl
  room := h.room
  stream i hi := by rw [Memory.read_write_ne _ _ (by omega), h.stream i hi]
  progress := Memory.read_write_self _ _ _

/-- A finalization from a writer that meets R28: within CAP_MAX it completes and moves WC past the byte and an
insertion, past it it raises. -/
theorem finalizeByte_wc (esc : Bool) {s : State} (hi : Inv s) (hf : s.flt = false) :
    (s.wc.toNat + 5 ≤ capMax s.params →
      ∃ t, finalizeByte esc s = .ok t ∧ Advances s t ∧
        (t.wc.toNat = s.wc.toNat + 1 ∨ (esc = true ∧ t.wc.toNat = s.wc.toNat + 2))) ∧
    (¬ s.wc.toNat + 5 ≤ capMax s.params → finalizeByte esc s = .raise .resourceExhausted s) := by
  have hH := Holds.of_live hi (hi.live hf)
  obtain ⟨hok, hraise⟩ := finalizeByte_spec esc hH.cleared hH.progress hH.wf hH.below
  rw [← hH.wc] at hok hraise
  refine ⟨fun hfit => ?_, hraise⟩
  obtain ⟨t, ht, hT, hadv, -⟩ := hok hfit
  refine ⟨t, ht, hadv, ?_⟩
  have hwc := hT.wc
  rw [List.length_append, ← hH.wc] at hwc
  cases esc with
  | false => exact .inl hwc
  | true =>
    have := emitBytes_singleton_length s.es (bitsByte (pendingBits s), true)
    simp only [true_and]
    omega

/-- Settles O22: `finalizeByte_wc` decides by WC + 5 against CAP_MAX. -/
theorem exhaustionPoint : Obligations.ExhaustionPoint := by
  intro s esc hi hf
  obtain ⟨hok, hraise⟩ := finalizeByte_wc esc hi hf
  refine ⟨⟨_, rfl⟩, capMax_le hi.legal, lt_capMax_add hi.legal, fun hfit => ?_, fun hpast => ?_⟩
  · obtain ⟨t, ht, -, hwc⟩ := hok hfit
    exact ⟨t, ht, hwc, by omega⟩
  · exact ⟨s, hraise (by omega)⟩

/-- R101, R122: a finalization stores at WC, WC + 1 and WC + 2 at most. -/
theorem finalizeByte_read_others {esc : Bool} {s t : State} (hi : Inv s) (hf : s.flt = false)
    (h : finalizeByte esc s = .ok t) {a : Nat} (ha : a < s.wc.toNat ∨ s.wc.toNat + 2 < a) :
    t.buf.read a = s.buf.read a := by
  obtain ⟨hok, hraise⟩ := finalizeByte_wc esc hi hf
  by_cases hfit : s.wc.toNat + 5 ≤ capMax s.params
  · obtain ⟨u, hu, hadv, hwc⟩ := hok hfit
    obtain rfl : u = t := Res.ok.inj (hu.symm.trans h)
    have hle : u.wc.toNat ≤ s.wc.toNat + 2 := by omega
    exact hadv.others a (ha.imp_right hle.trans_lt)
  · cases (hraise hfit).symm.trans h

/-- R47, R84: no command makes an access outside BUF or to a byte without a value. -/
theorem exec_ne_fault {s : State} (hi : Inv s) (i : Instr) (f : Fault) : exec i s ≠ .fault f := by
  obtain ⟨t, ht, -⟩ := exec_answers hi i
  rw [ht]
  nofun

/-- Settles O23, one lemma to a clause. -/
theorem noOverrun : Obligations.NoOverrun := fun _ hi hf =>
  ⟨fun _ => grow_leaves_room (hi.live hf).room, fun _ _ h _ => finalizeByte_read_others hi hf h, exec_ne_fault hi⟩

end Sys2Proof.Machine
end

section
/-! SUPPORT. WRITE_FIXED (R100 to R107): the escaper's marks on a write's bytes, and the statements on one bit and one
field. `exec_writeFixed_ok` says once what a WRITE_FIXED that answers OK has done; the cursor and readback statements
are read off it. -/

namespace Sys2Proof.Safety

open Sys2Proof.Machine

/-! ### Counting the inserted bytes (R123, R124) -/

/-- Unescaped finalizations insert nothing. -/
theorem insertions_map_unescaped (es : EscState) (bs : List Byte) :
    insertions es (bs.map fun b => (b, false)) = 0 := by
  induction bs with
  | nil => rfl
  | cons b bs ih => rw [List.map_cons, insertions_unescaped, ih]

/-- One finalization pays for its insertion with the two zeros ES has counted: ES as a number of zeros is the potential
of R124's bound. -/
theorem escCode_epNext (es : EscState) (b : Byte) :
    3 * (if (epNext es b).1 then 1 else 0) + (escCode (epNext es b).2).toNat ≤ (escCode es).toNat + 1 := by
  cases es with
  | noZeros | oneZero => by_cases hb : b = 0x00#8 <;> simp [epNext, escCode, hb]
  | twoOrMoreZeros => by_cases hb : b.toNat ≤ Config.epTriggerMax <;> simp [epNext, escCode, hb]

/-- Every insertion after the first needs three finalizations of its own. -/
theorem insertions_map_escaped_le (es : EscState) (bs : List Byte) :
    3 * insertions es (bs.map fun b => (b, true)) ≤ bs.length + (escCode es).toNat := by
  induction bs generalizing es with
  | nil => simp
  | cons b bs ih =>
    rw [List.map_cons, insertions_escaped, List.length_cons]
    have hhead := escCode_epNext es b
    have htail := ih (epNext es b).2
    omega

/-! ### The inserted bytes of a stream (R122) -/

/-- The physical bytes of a sequence of finalizations, each with whether it was inserted. -/
def insertedMarks (es : EscState) (bs : List (Byte × Bool)) : List (Byte × Bool) :=
  (emitMarked es bs).1.map fun x => (x.1, x.2.2)

@[simp] theorem insertedMarks_nil (es : EscState) : insertedMarks es [] = [] := rfl

@[simp] theorem insertedMarks_unescaped (es : EscState) (b : Byte) (bs : List (Byte × Bool)) :
    insertedMarks es ((b, false) :: bs) = (b, false) :: insertedMarks es bs := by simp [insertedMarks, emitMarked]

theorem insertedMarks_escaped (es : EscState) (b : Byte) (bs : List (Byte × Bool)) :
    insertedMarks es ((b, true) :: bs) =
      if (epNext es b).1 then (Config.escapeByte, true) :: (b, false) :: insertedMarks (epNext es b).2 bs
      else (b, false) :: insertedMarks (epNext es b).2 bs := by
  simp only [insertedMarks, emitMarked]
  split <;> simp

theorem map_fst_insertedMarks (es : EscState) (bs : List (Byte × Bool)) :
    (insertedMarks es bs).map (·.1) = emitBytes es bs := by simp [insertedMarks, emitBytes]

theorem filter_insertedMarks_length (es : EscState) (bs : List (Byte × Bool)) :
    ((insertedMarks es bs).filter (·.2)).length = insertions es bs := by
  simp [insertedMarks, insertions, List.filter_map, Function.comp_def]

/-- Deleting the inserted bytes leaves the finalized ones. -/
theorem kept_insertedMarks (es : EscState) (bs : List (Byte × Bool)) :
    ((insertedMarks es bs).filter fun x => !x.2).map (·.1) = bs.map (·.1) := by
  induction bs generalizing es with
  | nil => rfl
  | cons x bs ih =>
    obtain ⟨b, _ | _⟩ := x
    · simp [ih]
    · rw [insertedMarks_escaped]
      split <;> simp [ih]

/-- An inserted byte is 0x03 and stands right before the finalized byte that caused it. -/
theorem insertedMarks_inserted (es : EscState) (bs : List (Byte × Bool)) {k : Nat} {b : Byte}
    (h : (insertedMarks es bs)[k]? = some (b, true)) :
    b = Config.escapeByte ∧ ∃ b', (insertedMarks es bs)[k + 1]? = some (b', false) := by
  induction bs generalizing es k with
  | nil => simp at h
  | cons x bs ih =>
    obtain ⟨c, _ | _⟩ := x
    · rw [insertedMarks_unescaped] at h ⊢
      cases k with
      | zero => simp at h
      | succ k => exact ih es h
    · rw [insertedMarks_escaped] at h ⊢
      split at h
      next hins =>
        rw [if_pos hins]
        match k with
        | 0 => exact ⟨by simpa using h.symm, c, rfl⟩
        | 1 => simp at h
        | k + 2 => exact ih _ h
      next hins =>
        rw [if_neg hins]
        cases k with
        | zero => simp at h
        | succ k => exact ih _ h

/-- With nothing inserted the physical bytes are the finalized ones. -/
theorem emitBytes_of_insertions_eq_zero {es : EscState} {bs : List (Byte × Bool)} (h : insertions es bs = 0) :
    emitBytes es bs = bs.map (·.1) := by
  rw [← filter_insertedMarks_length, List.length_eq_zero_iff, List.filter_eq_nil_iff] at h
  rw [← kept_insertedMarks es bs, List.filter_eq_self.2 fun x hx => by simpa using h x hx, map_fst_insertedMarks]

end Sys2Proof.Safety

namespace Sys2Proof.Machine

open Sys2Proof.Safety

/-! ### One bit (R100, R106) -/

/-- A bit that does not fill the byte is placed without a look at the escape flag. -/
theorem putBit_of_not_full {s : State} (h : s.bo.toNat + 1 ≠ 8) (esc esc' bit : Bool) :
    putBit esc bit s = putBit esc' bit s := by
  unfold putBit
  congr 1
  funext b
  cases hw : memWrite s.wc.toNat (b ||| bitInByte bit s.bo) s with
  | ok t =>
    obtain ⟨-, rfl⟩ := memWrite_eq_ok.1 hw
    simp only [Res.ok_bind, if_neg h]
  | raise | fault => rfl

/-- Settles O28: `putBit_completes` for the bit that fills the byte, with EP_NEXT's answer on it, and `putBit_within`
for any other. -/
theorem completingBitDecidesEscape : Obligations.CompletingBitDecidesEscape := by
  intro s bit hi hf
  have hH := Holds.of_live hi (hi.live hf)
  refine ⟨fun hbo hfit => ⟨?_, ?_⟩, fun hbo => ?_⟩
  · obtain ⟨t, ht, hT, -, hes, -⟩ := (putBit_completes false bit hH (hH.bo ▸ hbo)).1 (hH.wc ▸ hfit)
    exact ⟨t, ht, by simpa using hT.finalizedBytes, hes, BitVec.eq_of_toNat_eq hT.bo⟩
  · obtain ⟨t, ht, hT, -, hes, -⟩ := (putBit_completes true bit hH (hH.bo ▸ hbo)).1 (hH.wc ▸ hfit)
    refine ⟨t, ht, ?_, hes, BitVec.eq_of_toNat_eq hT.bo⟩
    rw [hT.finalizedBytes, emitBytes_escaped, emitBytes_nil, List.append_nil]
  · obtain ⟨t, ht, hT, hadv, hes, hcap⟩ := putBit_within true bit hH (hH.bo ▸ hbo)
    have hplain := (putBit_of_not_full (by omega) false true bit).trans ht
    refine ⟨t, ht, hplain, hT.pendingBits, hT.finalizedBytes, hes, hcap, ?_⟩
    rw [hT.bo, hH.bo, List.length_append, List.length_singleton]

/-! ### One field (R102, R103, R104, R107) -/

/-- Settles O31: both write the bits of the field. -/
theorem valueBitsAboveWidthIgnored : Obligations.ValueBitsAboveWidthIgnored := by
  intro s v w esc
  have hbody : writeFixedBody v w esc = writeFixedBody (v % 2 ^ w) w esc := by
    funext t
    rw [writeFixedBody, writeFixedBody, writeFixedCore_eq, writeFixedCore_eq, fieldBits_mod]
  exact congrArg (unlessFaulted · s) hbody

theorem writtenBits_writeFixed {w : Nat} (hw1 : 1 ≤ w) (hw32 : w ≤ 32) (v : Nat) (esc : Bool) :
    writtenBits (.writeFixed v w esc) = some (fieldBits v w, esc) := if_pos ⟨hw1, hw32⟩

/-- Settles O18: of the two ends of a write the one that fits has the whole effect. -/
theorem writeFixedCompletes : Obligations.WriteFixedCompletes := by
  intro s v w esc hi hf hw1 hw32 hfit
  obtain ⟨t, ht, -⟩ := exec_answers hi (.writeFixed v w esc)
  obtain ⟨-, heff, -⟩ | ⟨hnot, -⟩ := exec_write_cases hi hf (writtenBits_writeFixed hw1 hw32 v esc) ht
  · exact ⟨t, ht, heff⟩
  · exact absurd hfit hnot

/-- A WRITE_FIXED that answers OK has the whole effect of its field, and the pending bits are what its bytes leave. -/
theorem exec_writeFixed_ok {s t : State} {v w : Nat} {esc : Bool} (hi : Inv s) (hw1 : 1 ≤ w) (hw32 : w ≤ 32)
    (h : exec (.writeFixed v w esc) s = .next t) (hr : t.resp = some okResponse) :
    WriteEffect s t (fieldBits v w) esc ∧ pendingBits t = restBits (pendingBits s ++ fieldBits v w) :=
  exec_write_ok hi (writtenBits_writeFixed hw1 hw32 v esc) h (by rw [hr]; rfl)

theorem pendingBits_length (s : State) : (pendingBits s).length = s.bo.toNat := by
  rw [pendingBits, List.length_take, byteBits_length, Nat.min_eq_left s.bo.isLt.le]

/-- Settles O25: the write's effect counts the finalized and inserted bytes, and at most 4 finalizations insert at most
2. -/
theorem writeFixedCursorAdvance : Obligations.WriteFixedCursorAdvance := by
  intro s t v w esc hi _ hw1 hw32 h hr f e
  obtain ⟨heff, -⟩ := exec_writeFixed_ok hi hw1 hw32 h hr
  have hlen : (fullBytes (pendingBits s ++ fieldBits v w)).length = f := by
    rw [fullBytes_length, List.length_append, pendingBits_length, fieldBits_length]
  have hf : (finalizes s (fieldBits v w) esc).length = f := by rw [finalizes, List.length_map, hlen]
  have hbo : t.bo.toNat = (s.bo.toNat + w) % 8 := by rw [heff.bo, fieldBits_length]
  have hwc : t.wc.toNat = s.wc.toNat + f + e := by rw [heff.wc, emitBytes_length, hf, Nat.add_assoc]
  have hunescaped : esc = false → e = 0 := by
    rintro rfl
    exact insertions_map_unescaped _ _
  have he : e ≤ 2 := by
    cases esc with
    | false => rw [hunescaped rfl]; exact Nat.zero_le 2
    | true =>
      have hle : 3 * e ≤ f + (escCode s.es).toNat := hlen ▸ insertions_map_escaped_le _ _
      have hes : (escCode s.es).toNat ≤ 2 := by cases s.es <;> decide
      have := s.bo.isLt
      omega
  exact ⟨hf, hbo, hwc, he, hunescaped, by omega⟩

/-- The bits of a stream's bytes are eight a byte. -/
theorem flatMap_byteBits_length (bs : List Byte) : (bs.flatMap byteBits).length = 8 * bs.length := by
  simp [List.length_flatMap, Nat.mul_comm]

/-- The bytes a write finalizes and the bits it leaves are the pending bits and its own. -/
theorem bits_of_finalizes (s : State) (bits : List Bool) (esc : Bool) :
    ((finalizes s bits esc).map (·.1)).flatMap byteBits ++ restBits (pendingBits s ++ bits) =
      pendingBits s ++ bits := by
  rw [finalizes, List.map_map]
  simpa [Function.comp_def] using bits_of_fullBytes (pendingBits s ++ bits)

/-- Where nothing is inserted, the physical bits from the cursor on are the field's. -/
theorem physicalBits_drop {s t : State} {bits : List Bool} {esc : Bool} (heff : WriteEffect s t bits esc)
    (hpend : pendingBits t = restBits (pendingBits s ++ bits)) (hnone : insertions s.es (finalizes s bits esc) = 0) :
    (physicalBits t).drop (8 * s.wc.toNat + s.bo.toNat) = bits := by
  rw [physicalBits, heff.stream, hpend, emitBytes_of_insertions_eq_zero hnone, List.flatMap_append, List.append_assoc,
    bits_of_finalizes, ← List.append_assoc, List.drop_left']
  rw [List.length_append, flatMap_byteBits_length, finalizedBytes_length, pendingBits_length]

/-- Settles O30: the physical bits from the cursor on where nothing is inserted, and the marked bytes, which are the
finalized ones once the inserted are deleted. -/
theorem readbackGivesValue : Obligations.ReadbackGivesValue := by
  intro s t v w esc hi _ hw1 hw32 hv h hr
  obtain ⟨heff, hpend⟩ := exec_writeFixed_ok hi hw1 hw32 h hr
  have hfield : (fieldBits v w).length = w ∧ bitsValue (fieldBits v w) = v :=
    ⟨fieldBits_length v w, by rw [bitsValue_fieldBits, Nat.mod_eq_of_lt hv]⟩
  refine ⟨fun hnone => by rwa [physicalBits_drop heff hpend hnone],
    insertedMarks s.es (finalizes s (fieldBits v w) esc), ?_, filter_insertedMarks_length _ _,
    fun k b => insertedMarks_inserted _ _, ?_⟩
  · rw [heff.stream, map_fst_insertedMarks]
  · rwa [kept_insertedMarks, hpend, bits_of_finalizes, List.drop_left' (pendingBits_length s)]

end Sys2Proof.Machine
end

section
/-! SUPPORT. The source's chunked procedure (R105) beside the bit-serial one (R102). What a writer holds determines its
state (`Holds.unique`), so a run of bits that stays in the byte is one store, and one that fills the byte is a store
and a finalization; a chunk is at most one of each. The loop follows by induction on its turns. -/

namespace Sys2Proof.Machine

open Sys2Proof.Safety

/-! ### Chunks as bits (R102, R105) -/

/-- R105's OR: a chunk at the cursor's position of a byte whose unwritten bits are 0 appends the chunk's bits. -/
theorem bitsByte_or (xs ys : List Bool) (h : xs.length + ys.length ≤ 8) :
    bitsByte xs ||| BitVec.ofNat 8 (bitsValue ys * 2 ^ (8 - xs.length - ys.length)) = bitsByte (xs ++ ys) := by
  obtain ⟨k, hk⟩ : ∃ k, 8 = xs.length + (ys.length + k) := ⟨8 - (xs.length + ys.length), by omega⟩
  have hx : 8 - xs.length = ys.length + k := by omega
  have hxy : 8 - (xs ++ ys).length = k := by rw [List.length_append]; omega
  have hlt : bitsValue ys * 2 ^ k < 2 ^ (ys.length + k) := by
    rw [Nat.pow_add]
    exact Nat.mul_lt_mul_of_pos_right (bitsValue_lt ys) (by positivity)
  rw [bitsByte, bitsByte, hxy, hx, Nat.add_sub_cancel_left, ← BitVec.ofNat_or, Nat.mul_comm (bitsValue xs),
    ← Nat.two_pow_add_eq_or_of_lt hlt, bitsValue_append]
  congr 1
  ring

/-- The bits of a list are cut where its value is divided. -/
theorem bitsValue_append_div (xs ys : List Bool) : bitsValue (xs ++ ys) / 2 ^ ys.length = bitsValue xs := by
  rw [bitsValue_append, Nat.mul_comm, Nat.mul_add_div (by positivity), Nat.div_eq_of_lt (bitsValue_lt ys), Nat.add_zero]

theorem bitsValue_append_mod (xs ys : List Bool) : bitsValue (xs ++ ys) % 2 ^ ys.length = bitsValue ys := by
  rw [bitsValue_append, Nat.mul_comm, Nat.mul_add_mod, Nat.mod_eq_of_lt (bitsValue_lt ys)]

/-- Eight bits are one byte, and none is left. -/
theorem fullBytes_eight {bs : List Bool} (h : bs.length = 8) : fullBytes bs = [bitsByte bs] := by
  have := fullBytes_append bs [] h
  rwa [List.append_nil, fullBytes_short [] (by decide)] at this

theorem restBits_eight {bs : List Bool} (h : bs.length = 8) : restBits bs = [] :=
  List.length_eq_zero_iff.1 (by rw [restBits_length, h])

/-- Fields agree when the values agree on the bits below the width. -/
theorem fieldBits_congr {v v' w : Nat} (h : ∀ j < w, v.testBit j = v'.testBit j) : fieldBits v w = fieldBits v' w :=
  List.map_congr_left fun j hj => h _ (by have := List.mem_range.1 hj; omega)

/-- The top r bits of a 32-bit value. -/
def topBits (n r : Nat) : List Bool := fieldBits (n / 2 ^ (32 - r)) r

@[simp] theorem topBits_length (n r : Nat) : (topBits n r).length = r := fieldBits_length _ _

theorem bitsValue_topBits {n c : Nat} (hn : n < 2 ^ 32) (hc : c ≤ 32) : bitsValue (topBits n c) = n / 2 ^ (32 - c) := by
  rw [topBits, bitsValue_fieldBits, Nat.mod_eq_of_lt]
  rwa [Nat.div_lt_iff_lt_mul (by positivity), ← Nat.pow_add, Nat.add_sub_cancel' hc]

/-- The normalization aligns the field's top bit to bit 31. -/
theorem topBits_normalized {w : Nat} (v : Nat) (hw : w ≤ 32) :
    topBits (v * 2 ^ (32 - w) % 2 ^ 32) w = fieldBits v w := by
  refine fieldBits_congr fun j hj => ?_
  rw [Nat.testBit_div_two_pow, Nat.testBit_mod_two_pow, Nat.testBit_mul_two_pow]
  simp [show j + (32 - w) < 32 by omega]

/-- One turn of the loop takes the top c bits and shifts the next ones up. -/
theorem topBits_split {c r : Nat} (n : Nat) (hc : c ≤ r) (hr : r ≤ 32) :
    topBits n r = topBits n c ++ topBits (n * 2 ^ c % 2 ^ 32) (r - c) := by
  have hsplit : topBits n r = fieldBits (n / 2 ^ (32 - r) / 2 ^ (r - c)) c ++ fieldBits (n / 2 ^ (32 - r)) (r - c) := by
    rw [← fieldBits_add, Nat.add_sub_cancel' hc, topBits]
  rw [hsplit, Nat.div_div_eq_div_mul, ← Nat.pow_add, show 32 - r + (r - c) = 32 - c by omega]
  congr 1
  refine fieldBits_congr fun j hj => ?_
  rw [Nat.testBit_div_two_pow, Nat.testBit_div_two_pow, Nat.testBit_mod_two_pow, Nat.testBit_mul_two_pow,
    show j + (32 - (r - c)) - c = j + (32 - r) by omega]
  simp [show j + (32 - (r - c)) < 32 by omega, show c ≤ j + (32 - (r - c)) by omega]

/-! ### A writer is determined by what it holds -/

/-- Two writers reached from one, with the same streams, ES and CAP, are equal. -/
theorem Holds.unique {s t u : State} {str : List Byte} {pend : List Bool} (ht : Holds t str pend)
    (hu : Holds u str pend) (hst : Advances s t) (hsu : Advances s u) (hes : t.es = u.es) (hcap : t.cap = u.cap) :
    t = u := by
  have hwc : t.wc = u.wc := BitVec.eq_of_toNat_eq (ht.wc.trans hu.wc.symm)
  have hbo : t.bo = u.bo := BitVec.eq_of_toNat_eq (ht.bo.trans hu.bo.symm)
  have hbuf : t.buf = u.buf := Memory.ext_read ht.wf hu.wf fun a => by
    by_cases hle : a ≤ str.length
    · exact hu.read_eq ht hle
    · rw [hst.others a (by rw [ht.wc]; omega), hsu.others a (by rw [hu.wc]; omega)]
  rw [hst.frame, hsu.frame, hwc, hbo, hbuf, hes, hcap]

section
variable {s : State} {str : List Byte} {pend : List Bool} (h : Holds s str pend)
include h

theorem Holds.memRead_eq : memRead s.wc.toNat s = .ok (bitsByte pend) := by
  rw [h.wc]
  exact memRead_eq_ok.2 ⟨h.room, h.progress⟩

theorem Holds.memWrite_eq (b : Byte) : memWrite s.wc.toNat b s = .ok { s with buf := s.buf.write str.length b } := by
  rw [h.wc]
  exact memWrite_eq_ok.2 ⟨h.room, rfl⟩

theorem Holds.below_write (b : Byte) : ∀ c ∈ s.buf.write str.length b, c.1 < s.cap := fun c hc => by
  obtain rfl | hc := Memory.mem_write hc
  · exact h.room
  · exact h.below c hc

/-- Storing the bits of an unfilled byte as the in-progress byte. -/
theorem Holds.place {bits : List Bool} (hlt : bits.length < 8) :
    Holds { s with buf := s.buf.write str.length (bitsByte bits), bo := BitVec.ofNat 3 bits.length } str bits where
  legal := h.legal
  wf := Memory.wf_write h.wf _ _
  below := h.below_write _
  capMax := h.capMax
  capForm := h.capForm
  wc := h.wc
  bo := Nat.mod_eq_of_lt hlt
  room := h.room
  stream i hi := by rw [Memory.read_write_ne _ _ (by omega), h.stream i hi]
  progress := Memory.read_write_self _ _ _

theorem Holds.advances_place (b : Byte) (bo : BitVec 3) :
    Advances s { s with buf := s.buf.write str.length b, bo := bo } := by
  refine ⟨rfl, le_rfl, fun a (ha : a < s.wc.toNat ∨ s.wc.toNat < a) => Memory.read_write_ne _ _ ?_⟩
  have := h.wc
  omega

/-- A run of bits that stays in the byte is one store. -/
theorem Holds.putBitList_within (esc : Bool) {bits : List Bool} (hlt : pend.length + bits.length < 8) :
    putBitList esc bits s = .ok { s with
      buf := s.buf.write str.length (bitsByte (pend ++ bits)), bo := BitVec.ofNat 3 (pend.length + bits.length) } := by
  rw [← List.length_append] at hlt ⊢
  have hspec := (putBitList_spec esc bits h).1
  rw [fullBytes_short _ hlt, restBits_short _ hlt] at hspec
  obtain ⟨t, ht, hT, hadv, hes, hcap⟩ := hspec trivial
  rw [List.map_nil, emitBytes_nil, List.append_nil] at hT
  rw [ht, hT.unique (h.place hlt) hadv (h.advances_place _ _) hes hcap]

/-- Where a run of bits that completes leaves the writer. -/
theorem Holds.of_putBitList {esc : Bool} {bits : List Bool} {t : State} (ht : putBitList esc bits s = .ok t) :
    Advances s t ∧ Holds t (str ++ emitBytes s.es ((fullBytes (pend ++ bits)).map fun b => (b, esc)))
      (restBits (pend ++ bits)) := by
  obtain ⟨hok, hraise⟩ := putBitList_spec esc bits h
  by_cases hfit : FitsFrom (Safety.capMax s.params) str.length s.es ((fullBytes (pend ++ bits)).map fun b => (b, esc))
  · obtain ⟨u, hu, hU, hadv, -⟩ := hok hfit
    obtain rfl : u = t := Res.ok.inj (hu.symm.trans ht)
    exact ⟨hadv, hU⟩
  · obtain ⟨u, hu, -⟩ := hraise hfit
    cases hu.symm.trans ht

end

/-! ### Two procedures that end alike -/

/-- From `s` both complete in one state, or both exhaust the storage, whatever they wrote before. -/
inductive EndsAlike (s : State) : Res State → Res State → Prop where
  | ok (t : State) : EndsAlike s (.ok t) (.ok t)
  | exhausted (t u : State) : Advances s t → Advances s u →
      EndsAlike s (.raise .resourceExhausted t) (.raise .resourceExhausted u)

theorem EndsAlike.of_eq_ok {s t : State} {r r' : Res State} (h : r = .ok t) (h' : r' = .ok t) : EndsAlike s r r' := by
  rw [h, h']
  exact .ok t

/-- What was written on the way does not matter. -/
theorem EndsAlike.of_advances {s t : State} {r r' : Res State} (hadv : Advances s t) (h : EndsAlike t r r') :
    EndsAlike s r r' := by
  cases h with
  | ok u => exact .ok u
  | exhausted u u' hu hu' => exact .exhausted u u' (hadv.trans hu) (hadv.trans hu')

/-- Sequences whose second parts end alike from where the first leave the writer. -/
theorem EndsAlike.bind {s : State} {r r' : Res State} {k k' : State → Res State} (h : EndsAlike s r r')
    (hk : ∀ t, r' = .ok t → EndsAlike s (k t) (k' t)) : EndsAlike s (r.bind k) (r'.bind k') := by
  cases h with
  | ok t => exact hk t rfl
  | exhausted t u ht hu => exact .exhausted t u ht hu

/-- What the command answers is one: RESOURCE_EXHAUSTED sees of the raised state only what no write changes (log 4). -/
theorem EndsAlike.conclude_eq {s : State} {r r' : Res State} (h : EndsAlike s r r') :
    conclude (noData r) = conclude (noData r') := by
  cases h with
  | ok => rfl
  | exhausted t u ht hu =>
    exact congrArg Host.Outcome.next (errorEntry_exhausted_congr (ht.params.trans hu.params.symm)
      (ht.port.trans hu.port.symm) (ht.free.trans hu.free.symm))

/-! ### One chunk -/

/-- A run of bits that fills the byte is a store and a finalization. -/
theorem Holds.finalizeByte_endsAlike {s : State} {str : List Byte} {pend : List Bool} (h : Holds s str pend)
    (esc : Bool) {bits : List Bool} (hfull : pend.length + bits.length = 8) :
    EndsAlike s (finalizeByte esc { s with buf := s.buf.write str.length (bitsByte (pend ++ bits)) })
      (putBitList esc bits s) := by
  rw [← List.length_append] at hfull
  have hstore := h.advances_place (bitsByte (pend ++ bits)) s.bo
  have hcleared := h.place (bits := []) (by decide)
  rw [← Memory.write_write s.buf str.length (bitsByte (pend ++ bits)), bitsByte_nil] at hcleared
  obtain ⟨hok, hraise⟩ := finalizeByte_spec esc
    (s := { s with buf := s.buf.write str.length (bitsByte (pend ++ bits)) }) hcleared (Memory.read_write_self _ _ _)
    (Memory.wf_write h.wf _ _) (h.below_write _)
  obtain ⟨hok', hraise'⟩ := putBitList_spec esc bits h
  rw [fullBytes_eight hfull, restBits_eight hfull] at hok'
  rw [fullBytes_eight hfull] at hraise'
  by_cases hfit : str.length + 5 ≤ Safety.capMax s.params
  · obtain ⟨t, ht, hT, hadv, hes, hcap⟩ := hok hfit
    obtain ⟨u, hu, hU, hadv', hes', hcap'⟩ := hok' ⟨hfit, trivial⟩
    exact .of_eq_ok ht (hu.trans (congrArg _ (hU.unique hT hadv' (hstore.trans hadv) (hes'.trans hes.symm)
      (hcap'.trans hcap.symm))))
  · obtain ⟨u, hu, hadv⟩ := hraise' fun hfits => hfit hfits.1
    rw [hraise hfit, hu]
    exact .exhausted _ _ hstore hadv

/-- A chunk that leaves room in the byte is stored as its bits. -/
theorem putChunk_within {s : State} {str : List Byte} {pend : List Bool} (h : Holds s str pend) (esc : Bool) {n c : Nat}
    (hn : n < 2 ^ 32) (hc : c ≤ 32) (hlt : pend.length + c < 8) :
    putChunk esc n c s = .ok { s with
      buf := s.buf.write str.length (bitsByte (pend ++ topBits n c)), bo := BitVec.ofNat 3 (pend.length + c) } := by
  have hor := bitsByte_or pend (topBits n c) (by rw [topBits_length]; omega)
  rw [bitsValue_topBits hn hc, topBits_length] at hor
  simp only [putChunk, h.memRead_eq, h.bo, Res.ok_bind]
  rw [if_pos (by omega), hor, h.memWrite_eq, Res.ok_bind, h.bo]

/-- A chunk that fills the byte stores what fits, finalizes, and starts the next byte with the rest. -/
theorem putChunk_fills {s : State} {str : List Byte} {pend xs ys : List Bool} (h : Holds s str pend) (esc : Bool)
    {n c : Nat} (hn : n < 2 ^ 32) (hc : c ≤ 8) (hbits : topBits n c = xs ++ ys) (hfull : pend.length + xs.length = 8) :
    putChunk esc n c s =
      (finalizeByte esc { s with buf := s.buf.write str.length (bitsByte (pend ++ xs)) }).bind fun t =>
        (memWrite t.wc.toNat (bitsByte ys) t).bind fun t => .ok { t with bo := BitVec.ofNat 3 ys.length } := by
  have hlen : c = xs.length + ys.length := by rw [← List.length_append, ← hbits, topBits_length]
  have hrest : c - (8 - pend.length) = ys.length := by omega
  have hor := bitsByte_or pend xs hfull.le
  rw [show 8 - pend.length - xs.length = 0 by omega, Nat.pow_zero, Nat.mul_one] at hor
  simp only [putChunk, h.memRead_eq, h.bo, Res.ok_bind, hrest]
  rw [if_neg (by omega), ← bitsValue_topBits hn (by omega), hbits, bitsValue_append_div, bitsValue_append_mod, hor,
    h.memWrite_eq]
  rfl

/-- A chunk ends as the run of its bits does: they stay in the byte, or some fill it and the rest starts the next. -/
theorem putChunk_endsAlike {s : State} {str : List Byte} {pend : List Bool} (h : Holds s str pend) (esc : Bool)
    {n c : Nat} (hn : n < 2 ^ 32) (hc : c ≤ 8) : EndsAlike s (putChunk esc n c s) (putBitList esc (topBits n c) s) := by
  by_cases hlt : pend.length + c < 8
  · have hbits := h.putBitList_within esc (bits := topBits n c) (by rwa [topBits_length])
    rw [topBits_length] at hbits
    exact .of_eq_ok (putChunk_within h esc hn (by omega) hlt) hbits
  · have hpend := h.pend_lt
    obtain ⟨xs, ys, hbits, hxs⟩ : ∃ xs ys, topBits n c = xs ++ ys ∧ xs.length = 8 - pend.length :=
      ⟨_, _, (List.take_append_drop (8 - pend.length) _).symm, by rw [List.length_take, topBits_length]; omega⟩
    have hfull : pend.length + xs.length = 8 := by omega
    have hys : ys.length < 8 := by
      have := congrArg List.length hbits
      rw [topBits_length, List.length_append] at this
      omega
    rw [putChunk_fills h esc hn hc hbits hfull, hbits, putBitList_append]
    refine (h.finalizeByte_endsAlike esc hfull).bind fun t ht => ?_
    obtain ⟨-, hT⟩ := h.of_putBitList ht
    rw [restBits_eight (by rwa [List.length_append])] at hT
    refine .of_eq_ok ?_ (hT.putBitList_within esc (bits := ys) (by simpa using hys))
    rw [hT.memWrite_eq]
    simp

/-! ### The loop -/

/-- R105's loop ends as the run of the remaining bits does, by induction on its turns. -/
theorem putChunks_endsAlike {s : State} {str : List Byte} {pend : List Bool} (h : Holds s str pend) (esc : Bool)
    {turns n r : Nat} (hn : n < 2 ^ 32) (hr : r ≤ 32) (hturns : r ≤ 8 * turns) :
    EndsAlike s (putChunks esc turns n r s) (putBitList esc (topBits n r) s) := by
  induction turns generalizing s str pend n r with
  | zero =>
    obtain rfl : r = 0 := by omega
    exact .ok s
  | succ turns ih =>
    by_cases hzero : r = 0
    · subst hzero
      exact .ok s
    · rw [putChunks, if_neg hzero, topBits_split n (Nat.min_le_right 8 r) hr, putBitList_append]
      refine (putChunk_endsAlike h esc hn (Nat.min_le_left 8 r)).bind fun t ht => ?_
      obtain ⟨hadv, hT⟩ := h.of_putBitList ht
      exact (ih hT (Nat.mod_lt _ (by norm_num)) (by omega) (by omega)).of_advances hadv

/-- Settles O27: the normalized value's top bits are the field, and the loop ends as the run of them. -/
theorem chunkedEqualsBitSerial : Obligations.ChunkedEqualsBitSerial := by
  intro s v w esc hi hf _ _ hw
  have hH := Holds.of_live hi (hi.live hf)
  rw [writeFixedCore_eq, ← topBits_normalized v hw]
  exact (putChunks_endsAlike hH esc (Nat.mod_lt _ (by norm_num)) hw hw).conclude_eq

end Sys2Proof.Machine
end

section
/-! SUPPORT. The escaper on sequences (R120 to R126): the state table read backwards, how many bytes it inserts, and what
a stream of escaped bytes guarantees. A stream from NoZeros is followed byte by byte from its end: its last ES says what
the last finalized bytes were. -/

namespace Sys2Proof.Safety

open Sys2Proof.Machine

/-- Settles O35: the de-escaper meets the insertions in the states in which the escaper made them. -/
theorem unescapeInvertsEscape : Obligations.UnescapeInvertsEscape := unescape_emitMarked

/-! ### The state table (R120) -/

/-- Settles O32: each row is the branch of EP_NEXT for its state and byte range. -/
theorem escaperTable : Obligations.EscaperTable := by
  have hzero {b : Byte} (h : b.toNat = 0) : b = 0x00#8 := BitVec.eq_of_toNat_eq h
  have hnonzero {b : Byte} (h : 1 ≤ b.toNat) : b ≠ 0x00#8 := by rintro rfl; exact absurd h (by decide)
  refine ⟨fun b h => ?_, fun b h => ?_, fun b h => ?_, fun b h => ?_, fun b h => ?_, fun b _ h => ?_, fun b h => ?_⟩
  · rw [hzero h]; rfl
  · simp only [epNext, if_neg (hnonzero h)]
  · rw [hzero h]; rfl
  · simp only [epNext, if_neg (hnonzero h)]
  · rw [hzero h]; rfl
  · simp only [epNext, decide_eq_true h]
  · simp only [epNext, decide_eq_false (show ¬ b.toNat ≤ 3 by omega)]

theorem epNext_insert_iff {es : EscState} {b : Byte} :
    (epNext es b).1 = true ↔ es = .twoOrMoreZeros ∧ b.toNat ≤ 3 := by
  cases es <;> simp [epNext]

theorem epNext_oneZero_iff {es : EscState} {b : Byte} :
    (epNext es b).2 = .oneZero ↔ es = .noZeros ∧ b = 0x00#8 := by
  by_cases hb : b = 0x00#8 <;> cases es <;> simp [epNext, hb]

theorem epNext_twoOrMoreZeros_iff {es : EscState} {b : Byte} :
    (epNext es b).2 = .twoOrMoreZeros ↔ es = .oneZero ∧ b = 0x00#8 := by
  by_cases hb : b = 0x00#8 <;> cases es <;> simp [epNext, hb]

/-- After an insertion no zero is counted, not even a triggering one. -/
theorem epNext_noZeros_of_insert {es : EscState} {b : Byte} (h : (epNext es b).1 = true) :
    (epNext es b).2 = .noZeros := by
  rw [eq_twoOrMoreZeros_of_insert h, epNext]

/-! ### Insertion counts (R124) -/

/-- The marks on one escaped finalization: the inserted byte where EP_NEXT asks for it, and the byte. -/
def finalizationMarks (es : EscState) (b : Byte) : List (Byte × Bool × Bool) :=
  if (epNext es b).1 then [(Config.escapeByte, false, true), (b, false, false)] else [(b, false, false)]

theorem emitMarked_escaped (es : EscState) (b : Byte) (bs : List (Byte × Bool)) :
    (emitMarked es ((b, true) :: bs)).1 = finalizationMarks es b ++ (emitMarked (epNext es b).2 bs).1 := by
  simp only [emitMarked, finalizationMarks]
  split <;> rfl

/-- ES as a number of zeros grows by at most one, and only on a zero byte. -/
theorem escCode_epNext_le (es : EscState) (b : Byte) :
    (escCode (epNext es b).2).toNat ≤ (if b = 0x00#8 then 1 else 0) + (escCode es).toNat := by
  by_cases hb : b = 0x00#8 <;> cases es <;> simp [epNext, escCode, hb]

/-- ES as a number of zeros grows by at most the escaped zero bytes. -/
theorem escCode_emitEs_le (es : EscState) (bs : List (Byte × Bool)) :
    (escCode (emitEs es bs)).toNat ≤ (bs.filter fun x => x.2 && x.1 == 0x00#8).length + (escCode es).toNat := by
  induction bs generalizing es with
  | nil => simp
  | cons x bs ih =>
    obtain ⟨b, _ | _⟩ := x
    · simpa using ih es
    · have hhead := escCode_epNext_le es b
      have htail := ih (epNext es b).2
      have hcount : (((b, true) :: bs).filter fun x => x.2 && x.1 == 0x00#8).length =
          (if b = 0x00#8 then 1 else 0) + (bs.filter fun x => x.2 && x.1 == 0x00#8).length := by
        by_cases hb : b = 0x00#8 <;> simp [hb, Nat.add_comm]
      rw [emitEs_escaped, hcount]
      omega

/-- Every inserted byte is 0x03. -/
theorem eq_escapeByte_of_inserted {es : EscState} {bs : List (Byte × Bool)} {x : Byte × Bool × Bool}
    (hx : x ∈ (emitMarked es bs).1) (hins : x.2.2 = true) : x.1 = Config.escapeByte := by
  have hmem : (x.1, true) ∈ insertedMarks es bs := List.mem_map.2 ⟨x, hx, by rw [hins]⟩
  obtain ⟨k, hk⟩ := List.mem_iff_getElem?.1 hmem
  exact (insertedMarks_inserted es bs hk).1

theorem insertions_map_escaped_le_third (es : EscState) (bs : List Byte) :
    insertions es (bs.map fun b => (b, true)) ≤ (bs.length + 2) / 3 := by
  have hle := insertions_map_escaped_le es bs
  have hes : (escCode es).toNat ≤ 2 := by cases es <;> decide
  omega

/-- A write command finalizes at most 5 bytes: at most 33 bits after at most 7 pending ones. -/
theorem finalizes_length_le {i : Instr} {bits : List Bool} {esc : Bool} (h : writtenBits i = some (bits, esc))
    (s : State) : (fullBytes (pendingBits s ++ bits)).length ≤ 5 := by
  have hbits := writtenBits_length_le h
  have hpend := s.bo.isLt
  rw [fullBytes_length, List.length_append, pendingBits_length]
  omega

theorem insertions_finalizes_le {i : Instr} {bits : List Bool} {esc : Bool} (h : writtenBits i = some (bits, esc))
    (s : State) : insertions s.es (finalizes s bits esc) ≤ 2 := by
  cases esc with
  | false => exact (insertions_map_unescaped _ _).trans_le (Nat.zero_le 2)
  | true =>
    have hthird := insertions_map_escaped_le_third s.es (fullBytes (pendingBits s ++ bits))
    have hlen := finalizes_length_le h s
    rw [finalizes]
    omega

/-- Settles O33, one lemma to a clause; the bound on one finalization is that of ceil(k / 3) at k = 1. -/
theorem insertionCounts : Obligations.InsertionCounts := by
  refine ⟨fun es b => ⟨by simpa using insertions_map_escaped_le_third es [b], epNext_noZeros_of_insert⟩,
    fun _ _ _ => eq_escapeByte_of_inserted, fun bs h => ?_, insertions_map_escaped_le_third,
    insertions_map_unescaped, fun s _ _ _ h => insertions_finalizes_le h s⟩
  have hle := escCode_emitEs_le .noZeros bs
  rw [h] at hle
  simpa [escCode] using hle

/-! ### A stream of escaped bytes from NoZeros (R125) -/

/-- The marked physical bytes of escaped finalizations from NoZeros. -/
def escapedMarks (bs : List Byte) : List (Byte × Bool × Bool) := (emitMarked .noZeros (bs.map fun b => (b, true))).1

/-- The ES they leave. -/
def escapedEs (bs : List Byte) : EscState := emitEs .noZeros (bs.map fun b => (b, true))

@[simp] theorem escapedMarks_nil : escapedMarks [] = [] := rfl
@[simp] theorem escapedEs_nil : escapedEs [] = .noZeros := rfl

theorem emitMarked_append (es : EscState) (xs ys : List (Byte × Bool)) :
    (emitMarked es (xs ++ ys)).1 = (emitMarked es xs).1 ++ (emitMarked (emitEs es xs) ys).1 := by
  induction xs generalizing es with
  | nil => rfl
  | cons x xs ih =>
    obtain ⟨b, _ | _⟩ := x
    · simp [emitMarked, ih]
    · rw [List.cons_append, emitMarked_escaped, emitMarked_escaped, emitEs_escaped, ih, List.append_assoc]

theorem escapedMarks_prefix_append (as cs : List Byte) : escapedMarks as <+: escapedMarks (as ++ cs) := by
  rw [escapedMarks, escapedMarks, List.map_append, emitMarked_append]
  exact List.prefix_append _ _

theorem escapedMarks_concat (bs : List Byte) (b : Byte) :
    escapedMarks (bs ++ [b]) = escapedMarks bs ++ finalizationMarks (escapedEs bs) b := by
  rw [escapedMarks, List.map_append, emitMarked_append, List.map_singleton, emitMarked_escaped]
  exact congrArg _ (List.append_nil _)

theorem escapedMarks_concat_insert {bs : List Byte} {b : Byte} (h : (epNext (escapedEs bs) b).1 = true) :
    escapedMarks (bs ++ [b]) = escapedMarks bs ++ [(0x03#8, false, true), (b, false, false)] := by
  rw [escapedMarks_concat, finalizationMarks, if_pos h]

theorem escapedMarks_concat_keep {bs : List Byte} {b : Byte} (h : (epNext (escapedEs bs) b).1 = false) :
    escapedMarks (bs ++ [b]) = escapedMarks bs ++ [(b, false, false)] := by
  rw [escapedMarks_concat, finalizationMarks, h]
  rfl

@[simp] theorem escapedEs_concat (bs : List Byte) (b : Byte) :
    escapedEs (bs ++ [b]) = (epNext (escapedEs bs) b).2 := by
  rw [escapedEs, List.map_append, emitEs_append]
  rfl

/-- Every physical byte comes from one finalization: it is the byte inserted before it, or the finalized byte. -/
theorem exists_finalization {bs : List Byte} {j : Nat} {x : Byte × Bool × Bool} (h : (escapedMarks bs)[j]? = some x) :
    ∃ as b, escapedMarks (as ++ [b]) <+: escapedMarks bs ∧
      ((epNext (escapedEs as) b).1 = true ∧ x = (0x03#8, false, true) ∧ j = (escapedMarks as).length ∨
        x = (b, false, false) ∧ j + 1 = (escapedMarks (as ++ [b])).length) := by
  induction bs using List.reverseRecOn with
  | nil => simp at h
  | append_singleton bs b ih =>
    by_cases hlt : j < (escapedMarks bs).length
    · rw [escapedMarks_concat, List.getElem?_append_left hlt] at h
      obtain ⟨as, c, hpre, hx⟩ := ih h
      exact ⟨as, c, hpre.trans (escapedMarks_prefix_append bs [b]), hx⟩
    · obtain ⟨k, rfl⟩ := Nat.exists_eq_add_of_le (Nat.le_of_not_lt hlt)
      refine ⟨bs, b, List.prefix_rfl, ?_⟩
      cases hins : (epNext (escapedEs bs) b).1 with
      | true =>
        rw [escapedMarks_concat_insert hins] at h ⊢
        match k with
        | 0 => exact .inl ⟨rfl, by simpa using h.symm, rfl⟩
        | 1 => exact .inr ⟨by simpa using h.symm, by simp⟩
        | k + 2 => simp at h
      | false =>
        rw [escapedMarks_concat_keep hins] at h ⊢
        match k with
        | 0 => exact .inr ⟨by simpa using h.symm, by simp⟩
        | k + 1 => simp at h

/-- ES counts one zero only after a finalized 0x00 that found none. -/
theorem exists_of_escapedEs_oneZero {bs : List Byte} (h : escapedEs bs = .oneZero) :
    ∃ as, bs = as ++ [0x00#8] ∧ escapedEs as = .noZeros := by
  cases bs using List.reverseRecOn with
  | nil => cases h
  | append_singleton as b =>
    obtain ⟨hes, rfl⟩ := epNext_oneZero_iff.1 (escapedEs_concat as b ▸ h)
    exact ⟨as, rfl, hes⟩

/-- ES counts two zeros only after a finalized 0x00 that found one. -/
theorem exists_of_escapedEs_twoOrMoreZeros {bs : List Byte} (h : escapedEs bs = .twoOrMoreZeros) :
    ∃ as, bs = as ++ [0x00#8] ∧ escapedEs as = .oneZero := by
  cases bs using List.reverseRecOn with
  | nil => cases h
  | append_singleton as b =>
    obtain ⟨hes, rfl⟩ := epNext_twoOrMoreZeros_iff.1 (escapedEs_concat as b ▸ h)
    exact ⟨as, rfl, hes⟩

theorem epNext_keep_of_ne {es : EscState} {b : Byte} (h : es ≠ .twoOrMoreZeros) : (epNext es b).1 = false :=
  Bool.eq_false_iff.2 fun hins => h (eq_twoOrMoreZeros_of_insert hins)

/-- While ES counts two zeros, the stream ends in two finalized 0x00. -/
theorem escapedMarks_of_twoOrMoreZeros {bs : List Byte} (h : escapedEs bs = .twoOrMoreZeros) :
    ∃ q, escapedMarks bs = q ++ [(0x00#8, false, false), (0x00#8, false, false)] := by
  obtain ⟨as, rfl, hone⟩ := exists_of_escapedEs_twoOrMoreZeros h
  obtain ⟨as, rfl, hno⟩ := exists_of_escapedEs_oneZero hone
  refine ⟨escapedMarks as, ?_⟩
  rw [escapedMarks_concat_keep (epNext_keep_of_ne (by simp [hone])),
    escapedMarks_concat_keep (epNext_keep_of_ne (by simp [hno])), List.append_assoc]
  rfl

/-- The stream's last byte is the last finalized one, after an insertion too. -/
theorem getLast?_escapedMarks_concat (bs : List Byte) (b : Byte) :
    (escapedMarks (bs ++ [b])).getLast? = some (b, false, false) := by
  rw [escapedMarks_concat, finalizationMarks]
  split <;> simp

/-- A stream that ends in a byte 0x00 has it finalized last. -/
theorem exists_concat_zero {bs : List Byte} {j : Nat} (hlen : (escapedMarks bs).length = j + 1)
    (h : ((escapedMarks bs)[j]?).map (·.1) = some 0x00#8) : ∃ as, bs = as ++ [0x00#8] := by
  cases bs using List.reverseRecOn with
  | nil => cases hlen
  | append_singleton as b =>
    have hlast := getLast?_escapedMarks_concat as b
    rw [List.getLast?_eq_getElem?, hlen, Nat.add_sub_cancel] at hlast
    obtain rfl : b = 0x00#8 := by simpa [hlast] using h
    exact ⟨as, rfl⟩

/-- Two bytes 0x00 at the stream's end that ES does not count: the first of them triggered an insertion. -/
theorem escapedMarks_of_uncounted_zeros {bs : List Byte} {j : Nat} (hlen : (escapedMarks bs).length = j + 2)
    (h0 : ((escapedMarks bs)[j]?).map (·.1) = some 0x00#8) (h1 : ((escapedMarks bs)[j + 1]?).map (·.1) = some 0x00#8)
    (hes : escapedEs bs ≠ .twoOrMoreZeros) :
    ∃ q, escapedMarks bs = q ++ [(0x03#8, false, true), (0x00#8, false, false), (0x00#8, false, false)] := by
  obtain ⟨as, rfl⟩ := exists_concat_zero hlen h1
  cases hins : (epNext (escapedEs as) 0x00#8).1 with
  | true =>
    -- The byte before the second zero would be the inserted 0x03.
    rw [escapedMarks_concat_insert hins] at hlen h0
    have hj : j = (escapedMarks as).length := by simpa using hlen.symm
    simp [hj] at h0
  | false =>
    rw [escapedMarks_concat_keep hins] at hlen h0 ⊢
    have hlen : (escapedMarks as).length = j + 1 := by simpa using hlen
    rw [List.getElem?_append_left (by omega)] at h0
    obtain ⟨as, rfl⟩ := exists_concat_zero hlen h0
    rw [escapedEs_concat] at hins hes
    have hfirst : (epNext (escapedEs as) 0x00#8).1 = true := by
      cases h : escapedEs as with
      | noZeros => exact absurd (by rw [escapedEs_concat, h]; rfl) hes
      | oneZero => rw [h] at hins; cases hins
      | twoOrMoreZeros => rfl
    exact ⟨escapedMarks as, by rw [escapedMarks_concat_insert hfirst, List.append_assoc]; rfl⟩

/-- R125 (a). -/
theorem escapedMarks_around_inserted {bs : List Byte} {j : Nat} {x : Byte × Bool × Bool}
    (h : (escapedMarks bs)[j]? = some x) (hins : x.2.2 = true) :
    ∃ q b r, b.toNat ≤ 3 ∧ j = q.length + 2 ∧ x = (0x03#8, false, true) ∧ escapedMarks bs =
      q ++ (0x00#8, false, false) :: (0x00#8, false, false) :: (0x03#8, false, true) :: (b, false, false) :: r := by
  obtain ⟨as, b, ⟨r, hr⟩, ⟨hb, hx, hj⟩ | ⟨hx, -⟩⟩ := exists_finalization h
  · obtain ⟨htwo, hle⟩ := epNext_insert_iff.1 hb
    obtain ⟨q, hq⟩ := escapedMarks_of_twoOrMoreZeros htwo
    rw [escapedMarks_concat_insert hb, hq] at hr
    exact ⟨q, b, r, hle, by simpa [hq] using hj, hx, by simpa using hr.symm⟩
  · simp [hx] at hins

/-- R125 (b), from the triple to the insertion before it. -/
theorem escapedMarks_before_zeros {bs : List Byte} {j : Nat} {x : Byte}
    (h0 : ((escapedMarks bs)[j]?).map (·.1) = some 0x00#8) (h1 : ((escapedMarks bs)[j + 1]?).map (·.1) = some 0x00#8)
    (h2 : (escapedMarks bs)[j + 2]? = some (x, false, false)) (hx : x.toNat ≤ 3) :
    ∃ q r, j = q.length + 1 ∧ escapedMarks bs = q ++ (0x03#8, false, true) :: r := by
  obtain ⟨as, b, ⟨r, hr⟩, ⟨-, hc, -⟩ | ⟨hc, hj⟩⟩ := exists_finalization h2
  · simp at hc
  obtain rfl : x = b := congrArg (·.1) hc
  cases hins : (epNext (escapedEs as) x).1 with
  | true =>
    -- The byte before x would be the inserted 0x03.
    rw [escapedMarks_concat_insert hins] at hr hj
    have hj : j + 1 = (escapedMarks as).length := by simpa using hj
    simp [← hr, hj] at h1
  | false =>
    rw [escapedMarks_concat_keep hins] at hr hj
    have hlen : (escapedMarks as).length = j + 2 := by simpa using hj.symm
    rw [← hr, List.append_assoc, List.getElem?_append_left (by omega)] at h0 h1
    have hes : escapedEs as ≠ .twoOrMoreZeros := fun h => by simp [epNext_insert_iff.2 ⟨h, hx⟩] at hins
    obtain ⟨q, hq⟩ := escapedMarks_of_uncounted_zeros hlen h0 h1 hes
    rw [hq] at hlen hr
    exact ⟨q, _, by simpa using hlen.symm, by simpa using hr.symm⟩

/-- Settles O34: the stream around an inserted byte, and before a triple that holds none. -/
theorem escaperGuarantee : Obligations.EscaperGuarantee := by
  intro bs m
  refine ⟨fun j x h hins => ?_, fun j x h0 h1 h2 hx => ?_⟩
  · obtain ⟨q, b, r, hb, rfl, rfl, hm⟩ := escapedMarks_around_inserted h hins
    rw [show m = _ from hm]
    exact ⟨by omega, by simp, by simp, rfl, b, hb, by simp [Nat.add_assoc]⟩
  · obtain ⟨q, r, rfl, hm⟩ := escapedMarks_before_zeros h0 h1 h2 hx
    rw [show m = _ from hm]
    exact ⟨by omega, by simp⟩

end Sys2Proof.Safety
end

section
/-! SUPPORT. The Exp-Golomb commands (R140 to R145): the bits WRITE_UE and WRITE_SE put, how far they move the cursor,
and that the decoders of R145 take the bits of a code back. `writtenBits_of_codeNumber` names the bits once for both
commands, and the statements on writes in general are then taken at them. -/

namespace Sys2Proof.Safety

open Sys2Proof.Machine

/-! ### The decoders (R126, R145) -/

/-- R145's decoder counts the leading zeros. -/
theorem ueDecodeFrom_replicate_false (l n : Nat) (bits : List Bool) :
    ueDecodeFrom l (List.replicate n false ++ bits) = ueDecodeFrom (l + n) bits := by
  induction n generalizing l with
  | zero => rfl
  | succ n ih => rw [List.replicate_succ, List.cons_append, ueDecodeFrom, ih, Nat.add_right_comm, Nat.add_assoc]

/-- After l zeros and the 1 the decoder takes a suffix of l bits whole. -/
theorem ueDecodeFrom_suffix {l : Nat} {suffix : List Bool} (h : suffix.length = l) :
    ueDecodeFrom l (true :: suffix) = some (2 ^ l - 1 + bitsValue suffix, []) := by
  subst h
  simp [ueDecodeFrom]

/-- The code of a code number decodes to it with nothing left. -/
theorem ueDecode_ueBits (m : Nat) : ueDecode (ueBits m) = some (m, []) := by
  have hle : 2 ^ Nat.log2 (m + 1) ≤ m + 1 := Nat.log2_self_le (by omega)
  have hlt : m + 1 < 2 ^ Nat.log2 (m + 1) * 2 := Nat.pow_succ .. ▸ Nat.lt_log2_self
  have hsuffix : (m + 1 - 2 ^ Nat.log2 (m + 1)) % 2 ^ Nat.log2 (m + 1) = m + 1 - 2 ^ Nat.log2 (m + 1) :=
    Nat.mod_eq_of_lt (by omega)
  have hpos : 0 < 2 ^ Nat.log2 (m + 1) := Nat.two_pow_pos _
  have hvalue : 2 ^ Nat.log2 (m + 1) - 1 + (m + 1 - 2 ^ Nat.log2 (m + 1)) = m := by omega
  rw [ueDecode, ueBits, ueDecodeFrom_replicate_false, Nat.zero_add, ueDecodeFrom_suffix (fieldBits_length _ _),
    bitsValue_fieldBits, hsuffix, hvalue]

/-- SE_MAP as R142 writes it: neither of its cases is negative. -/
theorem natCast_seMap (v : Int) : (seMap v : Int) = if 0 < v then 2 * v - 1 else -2 * v := by
  unfold seMap
  split <;> omega

/-- R145's inverse zig-zag undoes SE_MAP. -/
theorem seUnmap_seMap (v : Int) : seUnmap (seMap v) = v := by
  have h := natCast_seMap v
  unfold seUnmap
  split at h <;> split <;> omega

/-- Every physical byte of escaped finalizations was finalized escaped: the set U of R126 is empty. -/
theorem emitBytes_map_escaped (es : EscState) (bs : List Byte) :
    (emitBytes es (bs.map fun b => (b, true))).map (fun b => (b, false)) =
      (emitMarked es (bs.map fun b => (b, true))).1.map fun x => (x.1, x.2.1) := by
  induction bs generalizing es with
  | nil => rfl
  | cons b bs ih =>
    simp only [List.map_cons, emitBytes_escaped, emitMarked]
    split <;> simp [ih]

/-- A stream of escaped bytes de-escapes to them. -/
theorem unescape_emitBytes_escaped (es : EscState) (bs : List Byte) :
    unescape es ((emitBytes es (bs.map fun b => (b, true))).map fun b => (b, false)) = bs := by
  rw [emitBytes_map_escaped, unescape_emitMarked, List.map_map]
  exact List.map_id _

end Sys2Proof.Safety

namespace Sys2Proof.Machine

open Sys2Proof.Safety

/-! ### The bits of the two commands (R140 to R143) -/

theorem writtenBits_writeUE {m : Nat} (hm : m ≤ 131070) : writtenBits (.writeUE m) = some (ueBits m, true) := if_pos hm

theorem writtenBits_writeSE {v : Int} (hv : -65535 ≤ v ∧ v ≤ 65535) :
    writtenBits (.writeSE v) = some (ueBits (seMap v), true) := if_pos hv

/-- A WRITE_UE of m and a WRITE_SE of the value with zig-zag code m write the code of m. -/
theorem writtenBits_of_codeNumber {i : Instr} {m : Nat} (hm : m ≤ 131070)
    (h : i = .writeUE m ∨ ∃ v : Int, i = .writeSE v ∧ (m : Int) = if 0 < v then 2 * v - 1 else -2 * v) :
    writtenBits i = some (ueBits m, true) := by
  obtain rfl | ⟨v, rfl, hv⟩ := h
  · exact writtenBits_writeUE hm
  · obtain rfl : m = seMap v := Int.natCast_inj.1 (hv.trans (natCast_seMap v).symm)
    exact writtenBits_writeSE ((seMap_le_iff v).1 hm)

/-! ### Completion (R82, R101, R140 to R143) -/

/-- A write whose bits fit completes with their whole effect. -/
theorem exec_write_completes {s : State} {i : Instr} {bits : List Bool} {esc : Bool} (hi : Inv s) (hf : s.flt = false)
    (hw : writtenBits i = some (bits, esc)) (hfit : Fits s bits esc) :
    ∃ t, exec i s = .next t ∧ WriteEffect s t bits esc := by
  obtain ⟨t, ht, -⟩ := exec_answers hi i
  obtain ⟨-, heff, -⟩ | ⟨hnot, -⟩ := exec_write_cases hi hf hw ht
  · exact ⟨t, ht, heff⟩
  · exact absurd hfit hnot

/-- Settles O19: a write that fits, of the code of m. -/
theorem writeUECompletes : Obligations.WriteUECompletes := fun _ _ hi hf hm hfit =>
  exec_write_completes hi hf (writtenBits_writeUE hm) hfit

/-- Settles O20: a write that fits, of the code of the zig-zag of v. -/
theorem writeSECompletes : Obligations.WriteSECompletes := by
  intro s v m hi hf hlo hhi hmv hfit
  have hm : m ≤ 131070 := by split at hmv <;> omega
  exact exec_write_completes hi hf (writtenBits_of_codeNumber hm (.inr ⟨v, rfl, hmv⟩)) hfit

/-! ### The cursor (R144) -/

theorem finalizes_length (s : State) (bits : List Bool) (esc : Bool) :
    (finalizes s bits esc).length = (s.bo.toNat + bits.length) / 8 := by
  rw [finalizes, List.length_map, fullBytes_length, List.length_append, pendingBits_length]

/-- Settles O26: the cursor moves by the bits of the code and the inserted bytes; that a code has at most 33 bits and a
write inserts at most 2 bytes holds of every write command. -/
theorem expGolombCursorAdvance : Obligations.ExpGolombCursorAdvance := by
  intro s t i m hi _ hm hcode h hr len f e
  have hw := writtenBits_of_codeNumber hm hcode
  obtain ⟨heff, -⟩ := exec_write_ok hi hw h (by rw [hr]; rfl)
  have hlen : (ueBits m).length = len := ueBits_length m
  have hlen33 : len ≤ 33 := hlen ▸ writtenBits_length_le hw
  have hbo : t.bo.toNat = (s.bo.toNat + len) % 8 := by rw [heff.bo, hlen]
  have hwc : t.wc.toNat = s.wc.toNat + f + e := by
    rw [heff.wc, emitBytes_length, finalizes_length, hlen, Nat.add_assoc]
  have hbo7 := s.bo.isLt
  exact ⟨Nat.le_add_left 1 _, hlen33, hlen, (fieldBits_ueBits m).symm, by omega, hbo, hwc,
    insertions_finalizes_le hw s, by omega⟩

/-! ### Round trips (R145) -/

/-- De-escaping the bytes an escaped write added gives back its bits. -/
theorem newLogicalBits_eq {s t : State} {bits : List Bool} (heff : WriteEffect s t bits true)
    (hpend : pendingBits t = restBits (pendingBits s ++ bits)) : newLogicalBits s t = bits := by
  rw [newLogicalBits, heff.stream, ← finalizedBytes_length s, List.drop_left, finalizes, unescape_emitBytes_escaped,
    hpend, bits_of_fullBytes, List.drop_left' (pendingBits_length s)]

/-- A command that answers OK writing the code of m has put bits that decode to m. -/
theorem ueDecode_newLogicalBits {s t : State} {i : Instr} {m : Nat} (hi : Inv s)
    (hw : writtenBits i = some (ueBits m, true)) (h : exec i s = .next t) (hr : t.resp = some okResponse) :
    ueDecode (newLogicalBits s t) = some (m, []) := by
  obtain ⟨heff, hpend⟩ := exec_write_ok hi hw h (by rw [hr]; rfl)
  rw [newLogicalBits_eq heff hpend, ueDecode_ueBits]

/-- A rejected command answers with its error and writes no bit. -/
theorem exec_rejected_writes_nothing {s t : State} {i : Instr} {e : ErrorCode} (hf : s.flt = false)
    (hrej : rejects s i = some e) (h : exec i s = .next t) :
    t.resp = some ⟨.error e, []⟩ ∧ physicalBits t = physicalBits s := by
  rw [exec_of_rejects hf hrej] at h
  cases h
  exact ⟨rfl, rfl⟩

theorem rejects_writeUE {m : Nat} (hm : 131071 ≤ m) (s : State) : rejects s (.writeUE m) = some .egRange := if_pos hm

theorem rejects_writeSE {v : Int} (hv : v < -65535 ∨ 65535 < v) (s : State) :
    rejects s (.writeSE v) = some .egRange := if_pos hv

/-- A command that answers OK was not rejected. -/
theorem rejects_ne_of_ok {s t : State} {i : Instr} {e : ErrorCode} (hf : s.flt = false) (h : exec i s = .next t)
    (hr : t.resp = some okResponse) : rejects s i ≠ some e := fun hrej => by
  simp [(exec_rejected_writes_nothing hf hrej h).1] at hr

/-- Settles O41: a code number that is not rejected decodes from the bits of its code, and the zig-zag is undone after
that; outside the ranges the command is rejected. -/
theorem expGolombRoundTrip : Obligations.ExpGolombRoundTrip := by
  intro s hi hf
  refine ⟨fun t m h hr => ?_, fun t v h hr => ?_, fun t m hm h => ?_, fun t v hv h => ?_⟩
  · have hm : m ≤ 131070 := by
      by_contra hout
      exact rejects_ne_of_ok hf h hr (rejects_writeUE (by omega) s)
    exact ⟨hm, ueDecode_newLogicalBits hi (writtenBits_writeUE hm) h hr⟩
  · have hv : -65535 ≤ v ∧ v ≤ 65535 := by
      by_contra hout
      exact rejects_ne_of_ok hf h hr (rejects_writeSE (by omega) s)
    refine ⟨hv.1, hv.2, ?_⟩
    rw [ueDecode_newLogicalBits hi (writtenBits_writeSE hv) h hr, Option.map_some, seUnmap_seMap]
  · exact exec_rejected_writes_nothing hf (rejects_writeUE hm s) h
  · exact exec_rejected_writes_nothing hf (rejects_writeSE hv s) h

end Sys2Proof.Machine
end

section
/-! SUPPORT. A step on a command whose words decode (R163). -/

namespace Sys2Proof.Machine

/-- Execute (R163) on words that decode, in every state, faulted or not: `exec` itself answers while FLT = 1. -/
theorem execCommand_of_decode {c : Command} {i : Instr} (h : decode c = some i) (s : State) :
    execCommand c s = exec i s := by
  rw [execCommand, h]

/-- Settles O5: the step consumes the command and executes its words, which the decoder reads as the instruction. -/
theorem stepRunsDecodedCommand : Obligations.StepRunsDecodedCommand := fun _ _ _ _ hp hdecode =>
  (step_of_command hp).trans (execCommand_of_decode hdecode _)

end Sys2Proof.Machine
end

section
/-! SUPPORT. Exceptions (R180 to R187) and the idle machine (R195): which response a command gets, in R183's order, and
what an error or a refusal leaves of the state. One lemma for each place of that order, said of `execCommand` or `exec`;
the settled statements are read off them. -/

namespace Sys2Proof.Machine

open Sys2Proof.Safety

/-! ### Idle (R195) -/

/-- Settles O7, by induction on the number of steps: the first of them is idle and leaves the state as it was. -/
theorem idleHoldsState : Obligations.IdleHoldsState := by
  intro n s hp
  have hidle : core.step s = .next s := step_of_idle hp
  induction n with
  | zero => rfl
  | succ n ih => simpa only [Host.Core.run, hidle] using ih

/-! ### Refusal while faulted (R185) -/

/-- While FLT = 1 every word but INIT's is refused, whether it decodes or not. -/
theorem execCommand_faulted {c : Command} {s : State} (hf : s.flt = true) (hc : c.cmd ≠ 0x00000001#32) :
    execCommand c s = .next (refuseFaulted s) := by
  cases hdec : decode c with
  | some i =>
    have hinit : i ≠ .init := fun h => hc ((decode_eq_init_iff c).1 (h ▸ hdec))
    rw [execCommand_of_decode hdec, exec_faulted hf hinit]
  | none => rw [execCommand, hdec, execIllegal, if_pos hf]

/-- Settles O10: the refusal changes the response only, and the invariant ties ERR and CAUSE to FLT. -/
theorem refusedWhileFaulted : Obligations.RefusedWhileFaulted := by
  intro s c rest hf hp
  refine ⟨fun hc => (step_of_command hp).trans (execCommand_faulted hf hc), fun hi => ?_⟩
  have hcause : s.cause = some .resourceExhausted := hi.fltCause.1 hf
  exact ⟨by rw [hi.errCause, hcause]; rfl, by rw [hcause]; rfl⟩

/-! ### Contract violations (R181) -/

/-- Of the ways a command ends, only the rejection of its operands answers an error of code 1 to 4. -/
theorem Ending.of_error {s t : State} {i : Instr} {e : ErrorCode} {data : List Byte} (h : Ending s i t)
    (hr : t.resp = some ⟨.error e, data⟩) (he : e ≠ .resourceExhausted) : s.flt = false ∧ t = errorEntry e s := by
  cases h with
  | init | refused | wrote | exported => simp at hr
  | rejected e' _ hf _ =>
    obtain ⟨rfl, -⟩ : e' = e ∧ [] = data := by simpa using hr
    exact ⟨hf, rfl⟩
  | exhausted =>
    obtain ⟨rfl, -⟩ : .resourceExhausted = e ∧ [] = data := by simpa using hr
    exact absurd rfl he

/-- The same for an Illegal word. -/
theorem execIllegal_of_error {s : State} {e : ErrorCode} {data : List Byte}
    (hr : (execIllegal s).resp = some ⟨.error e, data⟩) : s.flt = false ∧ execIllegal s = errorEntry e s := by
  unfold execIllegal at hr ⊢
  split at hr
  · simp at hr
  next hf =>
    obtain ⟨rfl, -⟩ : .illegalCommand = e ∧ [] = data := by simpa using hr
    exact ⟨by simpa using hf, if_neg hf⟩

/-- Settles O11: the words are Illegal or a command's, and either way the error entered from the state before. -/
theorem contractViolationsTakeNoEffect : Obligations.ContractViolationsTakeNoEffect := by
  intro s t c rest e data hp h hr he
  rw [step_of_command hp] at h
  have hentry : s.flt = false ∧ t = errorEntry e { s with port := rest } := by
    cases hdec : decode c with
    | some i => exact (exec_ending (execCommand_of_decode hdec _ ▸ h)).of_error hr he
    | none =>
      rw [execCommand, hdec] at h; cases h
      exact execIllegal_of_error hr
  rwa [errorEntry_precise e _ he] at hentry

/-! ### The order of the conditions (R183) -/

/-- While FLT = 0 a word that does not decode is illegal. -/
theorem execCommand_illegal {c : Command} {s : State} (hf : s.flt = false) (hdec : decode c = none) :
    execCommand c s = .next (errorEntry .illegalCommand s) := by
  rw [execCommand, hdec, execIllegal, if_neg (by simp [hf])]

/-- While FLT = 0 a command with operands it accepts completes or exhausts the storage. -/
theorem code_of_accepted {s t : State} {i : Instr} {r : Response} (hi : Inv s) (hf : s.flt = false)
    (h : exec i s = .next t) (hr : t.resp = some r) (hacc : rejects s i = none) :
    r.code = .ok ∨ r.code = .error .resourceExhausted := by
  cases exec_cases hi h with
  | init | exported => cases hr; exact .inl rfl
  | refused _ hf' => simp [hf] at hf'
  | rejected e _ hrej _ => simp [hacc] at hrej
  | wrote bits esc t _ _ _ heff =>
    rw [heff.frame] at hr; cases hr
    exact .inl rfl
  | exhausted => cases hr; exact .inr rfl

/-- While FLT = 0 a command's operand check decides first; what the command does then comes last. -/
theorem code_of_check {s t : State} {i : Instr} {r : Response} {P : Prop} [Decidable P] {e : ErrorCode} (hi : Inv s)
    (hf : s.flt = false) (h : exec i s = .next t) (hr : t.resp = some r)
    (hcheck : rejects s i = if P then some e else none) :
    if P then r.code = .error e else r.code = .ok ∨ r.code = .error .resourceExhausted := by
  split
  next hP =>
    obtain ⟨hresp, -⟩ := exec_rejected_writes_nothing hf (hcheck.trans (if_pos hP)) h
    cases hresp.symm.trans hr
    rfl
  next hP => exact code_of_accepted hi hf h hr (hcheck.trans (if_neg hP))

/-- EXPORT, with the range check it makes, exhausts nothing. -/
theorem code_of_exportBytes {s t : State} {o l : Nat} {r : Response} (hi : Inv s) (hf : s.flt = false)
    (h : exec (.exportBytes o l) s = .next t) (hr : t.resp = some r) :
    if s.wc.toNat < o + l then r.code = .error .exportRange else r.code = .ok := by
  split
  next hlt => simpa [hlt] using code_of_check hi hf h hr rfl
  next hle =>
    rw [exec_exportBytes hi hf (by omega)] at h; cases h
    cases hr
    rfl

/-- Settles O13, along R183's order: INIT, the refusal, the decoder, each command's operand check, its execution. -/
theorem responsePriority : Obligations.ResponsePriority := by
  intro s c rest hi hp
  have hrest : Inv { s with port := rest } := inv_frame hi rest s.resp s.free
  obtain ⟨t, ht⟩ := execCommand_answers hrest c
  obtain ⟨r, hr, -⟩ := execCommand_responds ht
  refine ⟨t, r, (step_of_command hp).trans ht, hr, fun hc => ?_, fun hc hf => ?_, fun hc hf => ?_⟩
  · cases ht.symm.trans (execCommand_of_decode ((decode_eq_init_iff c).2 hc) _)
    cases hr
    rfl
  · cases ht.symm.trans (execCommand_faulted hf hc)
    cases hr
    rfl
  cases hdec : decode c with
  | none =>
    cases ht.symm.trans (execCommand_illegal hf hdec)
    cases hr
    rfl
  | some i =>
    rw [execCommand_of_decode hdec] at ht
    cases i with
    | init => exact hc ((decode_eq_init_iff c).1 hdec)
    | writeFixed v w esc => exact code_of_check hrest hf ht hr (if_congr (by omega) rfl rfl)
    | writeUE m => exact code_of_check hrest hf ht hr rfl
    | writeSE v => exact code_of_check hrest hf ht hr (if_congr (by omega) rfl rfl)
    | exportBytes o l => exact code_of_exportBytes (s := { s with port := rest }) hrest hf ht hr

end Sys2Proof.Machine
end

section
/-! SUPPORT. Reset (R200) and alignment (R206): what each leaves of every field, and the two settled statements. -/

namespace Sys2Proof.Machine

open Sys2Proof.Safety

/-! ### Reset (R34, R200) -/

/-- A reset requested during a command leaves the response or drops it (U7). -/
theorem resetAfterCommand_resp_cases (s : State) :
    (resetAfterCommand s).resp = s.resp ∨ (resetAfterCommand s).resp = none := by
  rw [resetAfterCommand_resp]
  split
  · exact .inl rfl
  · exact .inr rfl

/-- Of what the command did, the reset that follows it keeps the parameters, the events left, the response and the
counter: the first two are those of the state before. -/
theorem resetAfterCommand_of_frame {s t : State} (hparams : t.params = s.params) (hport : t.port = s.port) :
    resetAfterCommand t = { initWriter s with resp := (resetAfterCommand t).resp, free := t.free + 1 } := by
  simp only [resetAfterCommand, initWriter, hparams, hport]

/-- Settles O8, by the two events: a reset is INIT's effect with no response, and one requested during a command has
that effect on the state the command left. -/
theorem resetSetsEveryField : Obligations.ResetSetsEveryField := by
  intro s rest
  refine ⟨fun hp => step_of_reset hp, fun c t hp ht => ?_⟩
  obtain ⟨hparams, hport⟩ := execCommand_params_port ht
  have hstep : step s = .next (resetAfterCommand t) := (step_of_commandThenReset hp).trans (execThenReset_of_next ht)
  exact ⟨_, resetAfterCommand_resp_cases t, hstep.trans (congrArg _ (resetAfterCommand_of_frame hparams hport))⟩

/-! ### ALIGN (R73, R206) -/

/-- The bit offset that the host reads from STATUS is BO (R32). -/
theorem statusBitOffset_status (s : State) : statusBitOffset (status s) = s.bo.toNat := by
  obtain ⟨hbo, -⟩ := statusFields s
  rw [← hbo, BitVec.extractLsb'_toNat]
  rfl

/-- A write of accepted operands answers OK or RESOURCE_EXHAUSTED, with no data (R71, R182). -/
theorem exec_write_resp {s t : State} {i : Instr} {bits : List Bool} {esc : Bool} (hi : Inv s) (hf : s.flt = false)
    (hw : writtenBits i = some (bits, esc)) (h : exec i s = .next t) :
    t.resp = some okResponse ∨ t.resp = some exhaustedResponse := by
  obtain ⟨-, heff, -⟩ | ⟨-, u, -, rfl⟩ := exec_write_cases hi hf hw h
  · exact .inl (by rw [heff.frame])
  · exact .inr (errorEntry_resp _ _)

/-- Bits of value 0 change nothing of the byte they are placed in. -/
theorem bitsByte_append_zeros (xs : List Bool) {n : Nat} (h : xs.length + n ≤ 8) :
    bitsByte (xs ++ fieldBits 0 n) = bitsByte xs := by
  have hor := bitsByte_or xs (fieldBits 0 n) (by rwa [fieldBits_length])
  rw [← hor, bitsValue_fieldBits, Nat.zero_mod, Nat.zero_mul]
  exact BitVec.or_zero

/-- Zeros that fill the in-progress byte finalize it as it is. -/
theorem finalizes_zeros {s : State} (hl : Live s) (esc : Bool) :
    finalizes s (fieldBits 0 (8 - s.bo.toNat)) esc = [(inProgress s, esc)] := by
  have hbo := s.bo.isLt
  have hlen : (pendingBits s ++ fieldBits 0 (8 - s.bo.toNat)).length = 8 := by
    rw [List.length_append, pendingBits_length, fieldBits_length]; omega
  rw [finalizes, fullBytes_eight hlen, bitsByte_append_zeros _ (by rw [pendingBits_length]; omega), pendingBits,
    bitsByte_take_byteBits _ _ hbo hl.clean]
  rfl

/-- A write of one finalization completes where that one has room at the cursor (R82, R85). -/
theorem fits_of_finalizes_one {s : State} {bits : List Bool} {esc : Bool} {x : Byte × Bool}
    (h : finalizes s bits esc = [x]) (hroom : s.wc.toNat + 5 ≤ capMax s.params) : Fits s bits esc :=
  .inr (by rwa [lastCursor, h])

/-- Settles O42: ALIGN's WRITE_FIXED is of the zeros that fill the in-progress byte, and its effect is read off that one
unescaped finalization. -/
theorem alignPadsToByteBoundary : Obligations.AlignPadsToByteBoundary := by
  intro s hi hf
  refine ⟨fun hbo => ?_, fun hbo => ?_⟩
  · rw [macroAlign, statusBitOffset_status, hbo]
    rfl
  have hpos : s.bo.toNat ≠ 0 := fun h => hbo (BitVec.eq_of_toNat_eq h)
  have hlt := s.bo.isLt
  have hw := writtenBits_writeFixed (w := 8 - s.bo.toNat) (by omega) (by omega) 0 false
  have hfin := finalizes_zeros (hi.live hf) false
  refine ⟨?_, by omega, by omega, fun t ht => exec_write_resp hi hf hw ht, fun hroom => ?_⟩
  · rw [macroAlign, statusBitOffset_status, if_neg hpos]
  obtain ⟨t, ht, heff⟩ := exec_write_completes hi hf hw (fits_of_finalizes_one hfin hroom)
  refine ⟨t, ht, by rw [heff.frame], BitVec.eq_of_toNat_eq ?_, ?_, ?_⟩
  · rw [heff.bo, fieldBits_length, Nat.add_sub_cancel' hlt.le]
    rfl
  · rw [heff.es, hfin, emitEs_unescaped, emitEs_nil]
  · rw [heff.stream, hfin, emitBytes_unescaped, emitBytes_nil]

end Sys2Proof.Machine
end
